-- ==== Sys2Proof/Word.lean ====
section
/-! DEFINITION. The widths of this hardware: hash words, key bytes, cells, command words and response words. -/

namespace Sys2Proof

/-- Every hash value, accumulator, chunk word, position and the size: 32 bits, unsigned (rule R6). -/
abbrev Word := BitVec 32

/-- One key byte, one transfer of the key channel (rule R65). -/
abbrev Byte := BitVec 8

/-- One cell of the array, and the `RESULT` field: one bit (rules R23, R66). -/
abbrev Bit := BitVec 1

/-- One command word, one transfer of the command channel (rule R62). -/
abbrev CmdWord := BitVec 34

/-- One response word, one transfer of the response channel (rule R66). -/
abbrev RspWord := BitVec 67

end Sys2Proof
end

