-- ==== Sys2Proof/Syntax.lean ====
section
/-! DEFINITION. The commands of the core: the four rows of the opcode table. -/

namespace Sys2Proof

/-- One command of the command channel (rule R63). `ARG` is kept as it stands, an unsigned 32-bit number (rule R64). -/
inductive Instr where
  /-- CREATE: construct a filter of `size` cells (rule R131). -/
  | create (size : Word)
  /-- ADD: set the three cells of the key of `keyLen` bytes that follows on the key channel (rule R132). -/
  | add (keyLen : Word)
  /-- CONTAINS: test the three cells of the key of `keyLen` bytes that follows on the key channel (rule R133). -/
  | contains (keyLen : Word)
  /-- CLEAR: zero every cell. The core ignores the 32 bits of `ARG` (rule R134). -/
  | clear (ignored : Word)
deriving DecidableEq, Repr

end Sys2Proof
end

