-- ==== Sys2Proof/WellFormed.lean ====
section
/-! DEFINITION. Which commands an assembler writes. The core executes the others too: no command word is illegal. -/

namespace Sys2Proof

/-- A command is well formed when an assembler of rule R70 can have written it: CLEAR's unused `ARG` is 0 (rule R64,
"the assembler writes 0"). Every value of the other operands is legal (rule R68). No rule of the machine asks whether a
command is well formed: the core runs every command word (log entry 10). -/
def Instr.wellFormed : Instr → Bool
  | .create _ => true
  | .add _ => true
  | .contains _ => true
  | .clear ignored => ignored == 0#32

end Sys2Proof
end

