-- ==== Sys2Proof/Decode.lean ====
section
/-! DEFINITION. Command words: the decoder, total on every 34-bit word, the encoder, and the table's numbering. -/

namespace Sys2Proof

/-- `OP = cmd_word[33:32]` (rule R62). -/
def opField (w : CmdWord) : BitVec 2 := w.extractLsb' 32 2

/-- `ARG = cmd_word[31:0]` (rule R62). -/
def argField (w : CmdWord) : Word := w.extractLsb' 0 32

/-- The opcode of CREATE (rule R63). -/
def opCreate : BitVec 2 := 0b00#2
/-- The opcode of ADD (rule R63). -/
def opAdd : BitVec 2 := 0b01#2
/-- The opcode of CONTAINS (rule R63). -/
def opContains : BitVec 2 := 0b10#2
/-- The opcode of CLEAR (rule R63). -/
def opClear : BitVec 2 := 0b11#2

/-- The command a 34-bit word stands for: `OP` alone selects it (rule R63). All four values of `OP` are defined, so no
command word is refused (rule R68). -/
def decode (w : CmdWord) : Instr :=
  if opField w = opCreate then .create (argField w)
  else if opField w = opAdd then .add (argField w)
  else if opField w = opContains then .contains (argField w)
  else .clear (argField w)

/-- Why a number is no command word. -/
inductive DecodeError where
  /-- The number needs more than the 34 bits of the command channel (rules R60, R69). Raised by `decodeNat`; safe. -/
  | widerThanCommandChannel
deriving DecidableEq, Repr

/-- The decoder on any number: what does not fit the 34-bit command channel is refused by name (log entry 11). -/
def decodeNat (n : Nat) : Except DecodeError Instr :=
  if n < 2 ^ 34 then .ok (decode (BitVec.ofNat 34 n)) else .error .widerThanCommandChannel

/-- The opcode of a command (rule R63). -/
def Instr.op : Instr → BitVec 2
  | .create _ => opCreate
  | .add _ => opAdd
  | .contains _ => opContains
  | .clear _ => opClear

/-- The `ARG` of a command (rule R63). -/
def Instr.arg : Instr → Word
  | .create size => size
  | .add keyLen => keyLen
  | .contains keyLen => keyLen
  | .clear ignored => ignored

/-- The command word of a command: `{OP, ARG}` (rule R62). -/
def encode (i : Instr) : CmdWord := i.op ++ i.arg

/-- How many key-channel transfers belong to a command: `KEY_LEN` for ADD and CONTAINS, 0 for CREATE and CLEAR
(rule R69). -/
def Instr.keyBytes : Instr → Nat
  | .create _ => 0
  | .add keyLen => keyLen.toNat
  | .contains keyLen => keyLen.toNat
  | .clear _ => 0

/-- One row of the opcode table: a word `w` is an instance of the row when `w &&& mask = pattern` (rule R63). -/
structure OpcodeRow where
  mnemonic : String
  mask : CmdWord
  pattern : CmdWord
deriving DecidableEq, Repr

/-- The opcode table as `spec/opcode_table.json` gives it. -/
def opcodeTable : List OpcodeRow :=
  [ { mnemonic := "CREATE", mask := 0x300000000#34, pattern := 0x000000000#34 },
    { mnemonic := "ADD", mask := 0x300000000#34, pattern := 0x100000000#34 },
    { mnemonic := "CONTAINS", mask := 0x300000000#34, pattern := 0x200000000#34 },
    { mnemonic := "CLEAR", mask := 0x300000000#34, pattern := 0x300000000#34 } ]

/-- The row's name for a command (rule R63). -/
def Instr.mnemonic : Instr → String
  | .create _ => "CREATE"
  | .add _ => "ADD"
  | .contains _ => "CONTAINS"
  | .clear _ => "CLEAR"

/-- The command the decoder reads from a table word of `nbits` bits, bit 0 the least significant bit of the word
(rule R14): the bits above `nbits` are 0, and a word that does not fit the channel is refused. -/
def decodeTableWord (nbits w : Nat) : Option Instr :=
  match decodeNat (w % 2 ^ nbits) with
  | .ok i => some i
  | .error _ => none

end Sys2Proof
end

