-- ==== Sys2Proof/Machine/Flags.lean ====
section
/-! DEFINITION. The one flag of the hardware: `HIT`, the AND of the three cell bits (rules R30, R116). -/

namespace Sys2Proof.Machine

/-- `ba_bits[2:0]`, bit 0 for the first position (rules R71, R116). -/
def baBits (b1 b2 b3 : Bit) : BitVec 3 := (b3 ++ b2 ++ b1 : BitVec (1 + 1 + 1))

/-- `HIT = ba_hit = ba_bits[0] & ba_bits[1] & ba_bits[2]` (rule R116). -/
def baHit (bits : BitVec 3) : Bit := bits.extractLsb' 0 1 &&& bits.extractLsb' 1 1 &&& bits.extractLsb' 2 1

end Sys2Proof.Machine
end

