-- ==== Sys2Proof/Config.lean ====
section
/-! DEFINITION. What one built device fixes (`NMAX`) and the free values the spec leaves open. -/

namespace Sys2Proof

/-- The parameter of the hardware, an argument of the model (rule R5). A state carries it in a field that no step
changes, so that a statement about every state is a statement about every device (log entry 2). -/
structure Config where
  /-- `NMAX`, the number of physical one-bit cells (rule R5). -/
  nmax : Word
deriving DecidableEq, Repr

namespace Config

/-- Rule R5's range `1 <= NMAX <= 2^32 - 1`: the upper end is the width of the field. -/
abbrev Legal (c : Config) : Prop := 1 ≤ c.nmax.toNat

/-- The device with `NMAX = 2^32 - 1`, the value for which "`Create(n)` for any `n ≥ 1` succeeds" holds as written
(rule R5; log entry 2). -/
def full : Config := { nmax := 0xFFFFFFFF#32 }

/-- FREE VALUE (log entry 4): what a 32-bit working register holds between commands (rule R34). -/
opaque freeWord : Nat → Word

/-- FREE VALUE (log entry 4): what `CMD_OP` holds between commands (rule R34). -/
opaque freeOp : Nat → BitVec 2

/-- FREE VALUE (log entry 4): what `MM_CNT` holds between commands, within its range 0 to 4 (rules R27, R34). -/
opaque freeCount : Nat → Fin 5

end Config

end Sys2Proof
end

