-- ==== Sys2Proof/Machine/State.lean ====
section
/-! DEFINITION. The state of the core and of its three channels, the reasons a step stops, and the reset state. -/

namespace Sys2Proof.Machine

/-- Why the machine stops. The spec gives the core no fault (rule R154: its errors are statuses in responses). Each
fault below marks a state that no run from reset reaches, in which a rule's precondition is broken and the spec says
nothing; all are safe (log entry 7). -/
inductive Fault where
  /-- IDX_DERIVE asked for a remainder by `SIZE = 0`. Raised by ADD and CONTAINS in a state with `CONSTRUCTED = 1` and
  `SIZE = 0` (rule R12: "`n = 0` never reaches the primitive"). Safe. -/
  | zeroDivisor
  /-- CellRead or CellSet of an index at or above `SIZE`, or with `CONSTRUCTED = 0`: no such cell exists (rules R41, R43,
  R44). No command raises it, because every position is below `SIZE` (rule R108). Safe. -/
  | noSuchCell
  /-- A command in progress that is neither ADD nor CONTAINS, or holds `MM_CNT > 3` or `KEY_IDX > KEY_LEN`. Raised by the
  step that would continue it (rules R28, R92: "the sequencer guarantees it"). Safe. -/
  | brokenSequencer
deriving DecidableEq, Repr

/-- Why a command has no meaning. No command is refused: every command word has its effect (rule R68). -/
inductive Refusal where
  /-- A command without a meaning yet. Raised by no arm of `exec`. Safe. -/
  | notModelled (mnemonic : String)
deriving DecidableEq, Repr

/-- The `STATUS` of a response (rule R67). -/
inductive Status where
  | ok
  | invalidArgument
  | notConstructed
  | capacity
deriving DecidableEq, Repr

/-- The three error kinds; there is no other (rules R151 to R154). -/
inductive ErrorKind where
  | invalidArgument
  | notConstructed
  | capacity
deriving DecidableEq, Repr

/-- The cell array: the cells that hold 1, as (index, bit) pairs. One cell is the smallest addressable unit of this
hardware (rule R41), so a pair holds a bit where another hardware's holds a byte (log entry 8). `Machine/Ops.lean` gives its canonical
form `Memory.wf` and what an unlisted cell reads as. -/
abbrev Memory := List (Nat × Bit)

/-- The filter state, which lasts from command to command (rules R21 to R25). -/
structure Filter where
  /-- `SIZE`, the number of cells of the constructed filter (rule R21). -/
  size : Word
  /-- `CONSTRUCTED`, whether a filter instance exists (rule R22). -/
  constructed : Bool
  /-- `CELL[0 .. SIZE-1]` (rule R23). -/
  cells : Memory
deriving DecidableEq, Repr

/-- The registers of `murmur3_hash_pipe` (rule R27). -/
structure MurmurRegs where
  /-- `MM_HASH`, the running hash. -/
  hash : Word
  /-- `MM_K`, the chunk word being packed. -/
  k : Word
  /-- `MM_CNT`, the number of bytes packed into `MM_K` so far, 0 to 4. -/
  cnt : BitVec 3
deriving DecidableEq, Repr

/-- The registers of the command sequencer (rule R28). -/
structure SeqRegs where
  /-- `CMD_OP`, the opcode of the command in progress. -/
  cmdOp : BitVec 2
  /-- `KEY_LEN`, the key length of the ADD or CONTAINS in progress. -/
  keyLen : Word
  /-- `KEY_IDX`, the number of key bytes already taken for this command. -/
  keyIdx : Word
deriving DecidableEq, Repr

/-- The registers of `bloom_filter_indexer` (rule R29). -/
structure IndexerRegs where
  h1 : Word
  h2 : Word
  h3 : Word
  pos1 : Word
  pos2 : Word
  pos3 : Word
deriving DecidableEq, Repr

/-- The three channels and the input pins of `bloom_core`, with what the host offers on them (rules R60, R61). The
words in transit are the host's side, not state of the core (rule R35); they stand here so that a step is a function of
the state (log entry 5). -/
structure Channels where
  /-- The level of the pin `rst`. -/
  rst : Bool
  /-- The level of the pin `rsp_ready`. -/
  rspReady : Bool
  /-- The command words the host has offered and the core has not taken, first offered first. -/
  cmdIn : List CmdWord
  /-- The key bytes the host has offered and the core has not taken, first offered first. -/
  keyIn : List Byte
  /-- The responses the core has given and the host has not taken, oldest first: `rsp_word` shows the first. -/
  rspOut : List RspWord
  /-- The responses the host has taken, oldest first: the observable result of a run (rule R179). -/
  rspTaken : List RspWord
deriving DecidableEq, Repr

/-- The whole machine: the core of rule R35, its parameter, its channels, and the model's counter of free values. -/
structure State where
  /-- The parameter `NMAX` of the device (rule R5), which no step changes. -/
  cfg : Config
  /-- `SIZE`, `CONSTRUCTED` and the cells. -/
  filter : Filter
  /-- `FNV_ACC`, the register of `fnv_hash_pipe` (rule R26). -/
  fnvAcc : Word
  /-- `MM_HASH`, `MM_K`, `MM_CNT`. -/
  mm : MurmurRegs
  /-- `CMD_OP`, `KEY_LEN`, `KEY_IDX`. -/
  seq : SeqRegs
  /-- `H1`, `H2`, `H3`, `POS1`, `POS2`, `POS3`. -/
  idx : IndexerRegs
  /-- Whether a command is in progress and waits for key bytes (rules R33, R175). -/
  inProgress : Bool
  /-- The channels and input pins. -/
  chan : Channels
  /-- The MODEL's own counter of the free values taken so far (log entry 4). -/
  fresh : Nat
deriving DecidableEq, Repr

/-! ### The field updates -/

/-- The state with the filter state `v`. -/
def State.setFilter (s : State) (v : Filter) : State := { s with filter := v }
/-- The state with `v` in `FNV_ACC`. -/
def State.setFnvAcc (s : State) (v : Word) : State := { s with fnvAcc := v }
/-- The state with `v` in the registers of `murmur3_hash_pipe`. -/
def State.setMm (s : State) (v : MurmurRegs) : State := { s with mm := v }
/-- The state with `v` in the registers of the sequencer. -/
def State.setSeq (s : State) (v : SeqRegs) : State := { s with seq := v }
/-- The state with `v` in the registers of `bloom_filter_indexer`. -/
def State.setIdx (s : State) (v : IndexerRegs) : State := { s with idx := v }
/-- The state with a command in progress or none. -/
def State.setInProgress (s : State) (v : Bool) : State := { s with inProgress := v }
/-- The state with `v` on the channels. -/
def State.setChan (s : State) (v : Channels) : State := { s with chan := v }
/-- The state with the free-value counter at `v`. -/
def State.setFresh (s : State) (v : Nat) : State := { s with fresh := v }

/-- The reset state of a device with the parameter `c` (rules R33, R171). `SIZE` and `CONSTRUCTED` are the spec's; the
working registers, which the spec leaves unspecified, are 0 (DESIGN CHOICE, log entry 3), the pins `rst` low and
`rsp_ready` high and the free-value counter 0 (DESIGN CHOICE, log entries 4 and 5). No cell has a value. -/
def State.resetWith (c : Config) : State where
  cfg := c
  filter := { size := 0#32, constructed := false, cells := [] }
  fnvAcc := 0#32
  mm := { hash := 0#32, k := 0#32, cnt := 0#3 }
  seq := { cmdOp := 0#2, keyLen := 0#32, keyIdx := 0#32 }
  idx := { h1 := 0#32, h2 := 0#32, h3 := 0#32, pos1 := 0#32, pos2 := 0#32, pos3 := 0#32 }
  inProgress := false
  chan := { rst := false, rspReady := true, cmdIn := [], keyIn := [], rspOut := [], rspTaken := [] }
  fresh := 0

/-- The machine right after reset, for the device with `NMAX = 2^32 - 1` (rules R5, R171; log entry 2). -/
def State.reset : State := State.resetWith Config.full

end Sys2Proof.Machine
end

