-- ==== Sys2Proof/Machine/Operands.lean ====
section
/-! DEFINITION. How operands are formed: zero extension, the byte lanes of a chunk word, the fields of a response. -/

namespace Sys2Proof.Machine

/-- `zext_32` (rule R15): a key byte as a 32-bit symbol or chunk byte (rule R13). -/
def zext32 (b : Byte) : Word := b.setWidth 32

/-- `trunc_32` (rule R15): a natural number modulo 2^32. -/
def trunc32 (n : Nat) : Word := BitVec.ofNat 32 n

/-- A byte in lane `lane` of a chunk word, lane 0 the most significant: `zext_32(b) << (24 - 8*lane)` (rules R48, R92). -/
def byteInLane (b : Byte) (lane : Nat) : Word := zext32 b <<< (24 - 8 * lane)

/-- The two bits of a `STATUS` (rule R67). -/
def Status.code : Status → BitVec 2
  | .ok => 0b00#2
  | .invalidArgument => 0b01#2
  | .notConstructed => 0b10#2
  | .capacity => 0b11#2

/-- The status that reports an error kind (rules R151 to R153). -/
def ErrorKind.status : ErrorKind → Status
  | .invalidArgument => .invalidArgument
  | .notConstructed => .notConstructed
  | .capacity => .capacity

/-- The response word `{st, res, a, b}` (rule R66). -/
def rspWord (st : Status) (res : Bit) (a b : Word) : RspWord := (st.code ++ res ++ a ++ b : BitVec (2 + 1 + 32 + 32))

/-- `STATUS = rsp_word[66:65]` (rule R66). -/
def rspStatus (w : RspWord) : BitVec 2 := w.extractLsb' 65 2
/-- `RESULT = rsp_word[64]` (rule R66). -/
def rspResult (w : RspWord) : Bit := w.extractLsb' 64 1
/-- `H1 = rsp_word[63:32]` (rule R66). -/
def rspH1 (w : RspWord) : Word := w.extractLsb' 32 32
/-- `H2 = rsp_word[31:0]` (rule R66). -/
def rspH2 (w : RspWord) : Word := w.extractLsb' 0 32

end Sys2Proof.Machine
end

