-- ==== Sys2Proof/Machine/Ops.lean ====
section
/-! DEFINITION. The shared operations: the cell array, the three cell primitives, the response of a command, the error
response, the reset edge, and the key channel's `KeyNext`. -/

namespace Sys2Proof.Machine

/-! ### The cell array (rules R40 to R46) -/

/-- What a cell that is not listed holds: a bulk clear leaves 0 in every cell, and only cells set since are listed
(rules R118, R23). -/
def Memory.unlisted : Bit := 0#1

/-- The canonical form: indices strictly rising, and no entry equal to what an unlisted cell holds. -/
abbrev Memory.wf (m : Memory) : Prop := m.Pairwise (fun a b => a.1 < b.1) ∧ ∀ c ∈ m, c.2 ≠ Memory.unlisted

/-- The bit of the cell at an index. -/
def Memory.read : Memory → Nat → Bit
  | [], _ => Memory.unlisted
  | (j, c) :: m, i => if i = j then c else Memory.read m i

/-- The array with one cell written; the canonical form is kept. -/
def Memory.write : Memory → Nat → Bit → Memory
  | [], i, b => if b = Memory.unlisted then [] else [(i, b)]
  | (j, c) :: m, i, b =>
    if i < j then (if b = Memory.unlisted then (j, c) :: m else (i, b) :: (j, c) :: m)
    else if i = j then (if b = Memory.unlisted then m else (i, b) :: m)
    else (j, c) :: Memory.write m i b

/-- `CellZero(i)` for every `i` below `n` (rules R45, R118). -/
def Memory.zeroBelow (m : Memory) (n : Nat) : Memory := m.filter fun c => n ≤ c.1

/-- The array of exactly the cells `0 .. n-1`: the cells from `n` on do not exist (rule R23). -/
def Memory.crop (m : Memory) (n : Nat) : Memory := m.filter fun c => c.1 < n

/-- Whether `CELL[i]` exists: `0 <= i < SIZE` and `CONSTRUCTED = 1` (rules R23, R41). -/
def cellExists (i : Word) (s : State) : Bool := s.filter.constructed && decide (i < s.filter.size)

/-- `CellRead(i)` (rule R43); a cell that does not exist has no value. -/
def cellRead (i : Word) (s : State) : Option Bit :=
  if cellExists i s then some (Memory.read s.filter.cells i.toNat) else none

/-- `CellSet(i)`: `CELL[i] <- 1` (rule R44); it has no effect to give where the cell does not exist. -/
def cellSet (i : Word) (s : State) : Option State :=
  if cellExists i s then some (s.setFilter { s.filter with cells := Memory.write s.filter.cells i.toNat 1#1 }) else none

/-- `CellZero(i)`: `CELL[i] <- 0` (rule R45). -/
def cellZero (i : Word) (s : State) : State :=
  s.setFilter { s.filter with cells := Memory.write s.filter.cells i.toNat 0#1 }

/-! ### Responses and errors (rules R66, R150) -/

/-- The working registers after a command hold nothing a rule gives: free values (rule R34, log entry 4). -/
def forgetWork (s : State) : State :=
  let n := s.fresh
  ((((s.setFnvAcc (Config.freeWord n)).setMm
    { hash := Config.freeWord (n + 1), k := Config.freeWord (n + 2),
      cnt := BitVec.ofNat 3 (Config.freeCount n).val }).setSeq
    { cmdOp := Config.freeOp n, keyLen := Config.freeWord (n + 3), keyIdx := Config.freeWord (n + 4) }).setIdx
    { h1 := Config.freeWord (n + 5), h2 := Config.freeWord (n + 6), h3 := Config.freeWord (n + 7),
      pos1 := Config.freeWord (n + 8), pos2 := Config.freeWord (n + 9), pos3 := Config.freeWord (n + 10) }).setFresh (n + 11)

/-- `respond(st, res, a, b)`: the command is over and its response word stands last on the response channel
(rules R15, R66, R130); after it the working registers mean nothing (rule R34). -/
def respond (st : Status) (res : Bit) (a b : Word) (s : State) : State :=
  forgetWork ((s.setChan { s.chan with rspOut := s.chan.rspOut ++ [rspWord st res a b] }).setInProgress false)

/-- Taking an error: the response `respond(code, 0, h1, h2)` and nothing else (rules R150, R156). No state is saved and
there is no return: the core is then as ready as after an OK response (rule R157). -/
def answerError (e : ErrorKind) (h1 h2 : Word) (s : State) : State := respond e.status 0#1 h1 h2 s

/-! ### The sequencer's latches and the key channel -/

/-- `CMD_OP <- cmd_word[33:32]` (rule R130). -/
def latchOp (op : BitVec 2) (s : State) : State := s.setSeq { s.seq with cmdOp := op }

/-- `KeyNext()`: the next byte of the key channel, taken once and in order; nothing when none is offered (rule R47). -/
def keyNext (s : State) : Option (Byte × State) :=
  match s.chan.keyIn with
  | [] => none
  | b :: bs => some (b, s.setChan { s.chan with keyIn := bs })

/-- One edge with `rst = 1`: the reset state, whatever the core was doing; a command in progress and a response not yet
taken are gone (rules R170 to R172). The host's side of the channels, what it offers and what it has taken, is not the
core's to change. The free-value counter goes on. -/
def applyReset (s : State) : State :=
  ((State.resetWith s.cfg).setChan { s.chan with rspOut := [] }).setFresh s.fresh

end Sys2Proof.Machine
end

