-- ==== Sys2Proof/Machine/BitArray.lean ====
section
/-! DEFINITION. The unit `bloom_bitarray_ctrl`: BA_TEST3, BA_SET3 and BA_CLEAR_ALL (rules R115 to R118). -/

namespace Sys2Proof.Machine

/-- BA_TEST3: the three bits of one and the same array state; no cell changes (rule R116). -/
def baTest3 (p1 p2 p3 : Word) (s : State) : Option (BitVec 3) :=
  match cellRead p1 s, cellRead p2 s, cellRead p3 s with
  | some b1, some b2, some b3 => some (baBits b1 b2 b3)
  | _, _, _ => none

/-- BA_SET3: the three cells become 1, every other cell stays (rule R117). Equal positions set one cell (rule R120). -/
def baSet3 (p1 p2 p3 : Word) (s : State) : Option State :=
  ((cellSet p1 s).bind (cellSet p2)).bind (cellSet p3)

/-- BA_CLEAR_ALL: every cell below `n` becomes 0; the cells from `n` on are no part of the array (rule R118). -/
def baClearAll (n : Word) (s : State) : State :=
  s.setFilter { s.filter with cells := Memory.crop (Memory.zeroBelow s.filter.cells n.toNat) n.toNat }

end Sys2Proof.Machine
end

