-- ==== Sys2Proof/Machine/Arith.lean ====
section
/-! DEFINITION. The arithmetic primitives of rules R6 to R12: all the arithmetic the hardware has (rule R16). -/

namespace Sys2Proof.Machine

/-- The low 32 bits of the product (rule R7). (Here, in the sum and in the rotation the factor or summand that may be a
large constant is written first: unfolding `x * constant` on an unknown `x` would count the constant down.) -/
def mul32 (a b : Word) : Word := BitVec.ofNat 32 (b.toNat * a.toNat)

/-- The sum modulo 2^32 (rule R8). -/
def add32 (a b : Word) : Word := BitVec.ofNat 32 (b.toNat + a.toNat)

/-- The bitwise exclusive-or (rule R9). -/
def xor32 (a b : Word) : Word := a ^^^ b

/-- The logical right shift (rule R10). -/
def shr32 (a : Word) (s : Nat) : Word := BitVec.ofNat 32 (a.toNat / 2 ^ s)

/-- The rotation to the left by `r`, `0 < r < 32` (rule R11). -/
def rotl32 (a : Word) (r : Nat) : Word := BitVec.ofNat 32 (2 ^ r * a.toNat) ||| BitVec.ofNat 32 (a.toNat / 2 ^ (32 - r))

/-- The unsigned remainder by `n > 0` (rule R12). A remainder by 0 has no value. -/
def umod32 (a n : Word) : Option Word :=
  if n = 0#32 then none else some (BitVec.ofNat 32 (a.toNat - n.toNat * (a.toNat / n.toNat)))

end Sys2Proof.Machine
end

