-- ==== Sys2Proof/Machine/Constants.lean ====
section
/-! DEFINITION. The compile-time constants of the hash layer (rule R4), each in one place. -/

namespace Sys2Proof.Machine

/-- `FNV_OFFSET_BASIS` (rule R4). -/
def fnvOffsetBasis : Word := 0x811C9DC5#32
/-- `FNV_PRIME` (rule R4; conflict C8 keeps the document's literal 37). -/
def fnvPrime : Word := 37#32
/-- `MM_SEED` (rule R4). -/
def mmSeed : Word := 2#32
/-- `MM_C1` (rule R4). -/
def mmC1 : Word := 0xCC9E2D51#32
/-- `MM_C2` (rule R4). -/
def mmC2 : Word := 0x1B873593#32
/-- `MM_R1`, the rotate of the chunk word (rule R4). -/
def mmR1 : Nat := 15
/-- `MM_R2`, the rotate of the running hash (rule R4). -/
def mmR2 : Nat := 13
/-- `MM_M` (rule R4). -/
def mmM : Word := 5#32
/-- `MM_N` (rule R4). -/
def mmN : Word := 0xE6546B64#32
/-- `MM_F1` (rule R4). -/
def mmF1 : Word := 0x85EBCA6B#32
/-- `MM_F2` (rule R4). -/
def mmF2 : Word := 0xC2B2AE35#32
/-- `MM_CHUNK_BYTES` (rule R4). -/
def mmChunkBytes : Nat := 4

end Sys2Proof.Machine
end

