-- ==== Sys2Proof/Machine/Hash.lean ====
section
/-! DEFINITION. The functions of a key that the units compute: `FnvHash`, `MurmurHash3` and the three positions. -/

namespace Sys2Proof.Machine

/-- One FNV step: first the multiplication, then the exclusive-or (rule R82). -/
def fnvStep (acc sym : Word) : Word := xor32 (mul32 acc fnvPrime) sym

/-- `FnvSyms` of a sequence of 32-bit symbols (rule R83). -/
def fnvSyms (syms : List Word) : Word := syms.foldl fnvStep fnvOffsetBasis

/-- `FnvHash` of a key: each byte is one symbol, zero-extended (rule R84). -/
def fnvHash (key : List Byte) : Word := fnvSyms (key.map zext32)

/-- The chunk words `k_0 .. k_{m-1}` of a key: four bytes a chunk, the first byte of a chunk in bits 31:24; in the last,
partial chunk the missing bytes count as 0 (rule R93). -/
def chunkWords : List Byte → List Word
  | [] => []
  | [b0] => [byteInLane b0 0]
  | [b0, b1] => [byteInLane b0 0 ||| byteInLane b1 1]
  | [b0, b1, b2] => [byteInLane b0 0 ||| byteInLane b1 1 ||| byteInLane b2 2]
  | b0 :: b1 :: b2 :: b3 :: rest =>
    (byteInLane b0 0 ||| byteInLane b1 1 ||| byteInLane b2 2 ||| byteInLane b3 3) :: chunkWords rest

/-- The first half of the per-chunk step: multiply, rotate by 15, multiply (rule R94). -/
def mmScramble (k : Word) : Word := mul32 (rotl32 (mul32 k mmC1) mmR1) mmC2

/-- `mix`, the per-chunk step: XOR into the hash, rotate by 13, times 5 plus `0xE6546B64` (rules R94, R97). -/
def mmMix (h k : Word) : Word := add32 (mul32 (rotl32 (xor32 h (mmScramble k)) mmR2) mmM) mmN

/-- `fmix`, the finalisation (rules R96, R97). -/
def mmFmix (h len : Word) : Word :=
  let f0 := xor32 h len
  let f1 := xor32 f0 (shr32 f0 16)
  let f2 := mul32 f1 mmF1
  let f3 := xor32 f2 (shr32 f2 13)
  let f4 := mul32 f3 mmF2
  xor32 f4 (shr32 f4 16)

/-- `MurmurHash3` of a key (rule R97). The length of a key below 2^32 bytes enters as it is (rule R13). No longer key can be
presented and the spec gives its length no narrowing; the function takes it modulo 2^32 (DESIGN CHOICE, log entry 15). -/
def murmurHash3 (key : List Byte) : Word := mmFmix ((chunkWords key).foldl mmMix mmSeed) (trunc32 key.length)

/-- The registers of `murmur3_hash_pipe` when `taken` are the key bytes taken so far: the full chunks are mixed in, the
bytes of the partial chunk stand in `MM_K` (rules R92, R93, R95). -/
def murmurRegs (taken : List Byte) : MurmurRegs where
  hash := (chunkWords (taken.take (4 * (taken.length / 4)))).foldl mmMix mmSeed
  k := (chunkWords (taken.drop (4 * (taken.length / 4)))).headD 0#32
  cnt := BitVec.ofNat 3 (taken.length % 4)

/-- The third hash: `(h1 + 2*h2) mod 2^32` (rule R106). -/
def h3Of (h1 h2 : Word) : Word := add32 h1 (mul32 h2 2#32)

/-- The three positions of a key in a filter of `size > 0` cells, `Pos(key, SIZE)` (rule R110). -/
def positions (key : List Byte) (size : Word) : Option (Word × Word × Word) :=
  match umod32 (fnvHash key) size, umod32 (murmurHash3 key) size, umod32 (h3Of (fnvHash key) (murmurHash3 key)) size with
  | some p1, some p2, some p3 => some (p1, p2, p3)
  | _, _, _ => none

end Sys2Proof.Machine
end

