-- ==== Sys2Proof/Machine/Indexer.lean ====
section
/-! DEFINITION. The unit `bloom_filter_indexer`: IDX_DERIVE (rules R105 to R107). -/

namespace Sys2Proof.Machine

/-- IDX_DERIVE: the third hash and the three reductions modulo `SIZE` (rules R106, R107). It has no result for
`SIZE = 0`, which its precondition excludes. -/
def idxDerive (idxH1 idxH2 : Word) (s : State) : Option State :=
  let h3 := h3Of idxH1 idxH2
  match umod32 idxH1 s.filter.size, umod32 idxH2 s.filter.size, umod32 h3 s.filter.size with
  | some p1, some p2, some p3 =>
    some (s.setIdx { h1 := idxH1, h2 := idxH2, h3 := h3, pos1 := p1, pos2 := p2, pos3 := p3 })
  | _, _, _ => none

end Sys2Proof.Machine
end

