-- ==== Sys2Proof/Machine/Fnv.lean ====
section
/-! DEFINITION. The unit `fnv_hash_pipe`: FNV_INIT and FNV_ABSORB (rules R80 to R82). -/

namespace Sys2Proof.Machine

/-- FNV_INIT (rule R81). -/
def fnvInit (s : State) : State := s.setFnvAcc fnvOffsetBasis

/-- FNV_ABSORB of one 32-bit symbol (rule R82). -/
def fnvAbsorb (sym : Word) (s : State) : State := s.setFnvAcc (fnvStep s.fnvAcc sym)

end Sys2Proof.Machine
end

