-- ==== Sys2Proof/Machine/Murmur.lean ====
section
/-! DEFINITION. The unit `murmur3_hash_pipe`: MM_INIT, MM_PACK, MM_CHUNK and MM_FINAL (rules R90 to R96). -/

namespace Sys2Proof.Machine

/-- MM_INIT (rule R91). -/
def mmInit (s : State) : State := s.setMm { hash := mmSeed, k := 0#32, cnt := 0#3 }

/-- MM_PACK of one byte, for `MM_CNT <= 3` (rule R92). -/
def mmPack (b : Byte) (s : State) : State :=
  s.setMm { s.mm with k := s.mm.k ||| byteInLane b s.mm.cnt.toNat, cnt := s.mm.cnt + 1#3 }

/-- MM_CHUNK, the same for a full and a partial chunk (rule R94). -/
def mmChunk (s : State) : State := s.setMm { hash := mmMix s.mm.hash s.mm.k, k := 0#32, cnt := 0#3 }

/-- MM_FINAL with the key length in bytes (rule R96). -/
def mmFinal (len : Word) (s : State) : State := s.setMm { s.mm with hash := mmFmix s.mm.hash len }

end Sys2Proof.Machine
end

