-- ==== Sys2Proof/Machine/KeyPhase.lean ====
section
/-! DEFINITION. The key phase shared by ADD and CONTAINS: `HashKey` (rules R95, R135). -/

namespace Sys2Proof.Machine

/-- The start of a key command: the latches, FNV_INIT and MM_INIT (rule R135). -/
def startKey (op : BitVec 2) (len : Word) (s : State) : State :=
  mmInit (fnvInit ((s.setSeq { cmdOp := op, keyLen := len, keyIdx := 0#32 }).setInProgress true))

/-- One turn of the loop of rule R135 with the byte `b`: both units take it, and a full chunk is mixed in. -/
def takeByte (b : Byte) (s : State) : State :=
  let s := mmPack b (fnvAbsorb (zext32 b) s)
  let s := if s.mm.cnt = 4#3 then mmChunk s else s
  s.setSeq { s.seq with keyIdx := s.seq.keyIdx + 1#32 }

/-- The loop of rule R135 over the bytes offered: it takes bytes while `KEY_IDX < KEY_LEN`, and stops early when no more
is offered. The surplus stays on the channel (rule R175). -/
def keyLoop : List Byte → State → State
  | [], s => s.setChan { s.chan with keyIn := [] }
  | b :: bs, s =>
    if s.seq.keyIdx < s.seq.keyLen then keyLoop bs (takeByte b s) else s.setChan { s.chan with keyIn := b :: bs }

/-- After the last byte: MM_CHUNK of a partial chunk, then MM_FINAL with the byte length (rules R95, R135). -/
def endKey (s : State) : State :=
  mmFinal s.seq.keyLen (if s.mm.cnt = 0#3 then s else mmChunk s)

/-- The key phase from where it stands: when all `KEY_LEN` bytes are there the command finishes with `FNV_ACC` and
`MM_HASH` as its two hashes; else it waits in progress, with no time limit and no error (rules R135, R175; log entry
1). -/
def runKey (finish : State → Host.Outcome State Fault Refusal) (s : State) : Host.Outcome State Fault Refusal :=
  let t := keyLoop s.chan.keyIn s
  if t.seq.keyIdx < t.seq.keyLen then .next t else finish (endKey t)

end Sys2Proof.Machine
end

