-- ==== Sys2Proof/Machine/Commands.lean ====
section
/-! DEFINITION. The meanings of CREATE, ADD, CONTAINS and CLEAR (rules R130 to R134). -/

namespace Sys2Proof.Machine

/-- CREATE (rule R131): both checks come before any filter state is written. A successful CREATE in any state replaces
the instance; a failed one leaves it. -/
def execCreate (size : Word) (s : State) : Host.Outcome State Fault Refusal :=
  let s := latchOp opCreate s
  .next <|
    if size = 0#32 then answerError .invalidArgument 0#32 0#32 s
    else if s.cfg.nmax < size then answerError .capacity 0#32 0#32 s
    else
      let s := baClearAll size (s.setFilter { s.filter with size := size })
      respond .ok 0#1 0#32 0#32 (s.setFilter { s.filter with constructed := true })

/-- ADD after its key phase (rule R132): the hashes stand in `FNV_ACC` and `MM_HASH`. -/
def finishAdd (s : State) : Host.Outcome State Fault Refusal :=
  if s.filter.constructed = false then .next (answerError .notConstructed s.fnvAcc s.mm.hash s)
  else
    match idxDerive s.fnvAcc s.mm.hash s with
    | none => .fault .zeroDivisor
    | some t =>
      match baSet3 t.idx.pos1 t.idx.pos2 t.idx.pos3 t with
      | none => .fault .noSuchCell
      | some u => .next (respond .ok 0#1 u.idx.h1 u.idx.h2 u)

/-- ADD (rule R132). -/
def execAdd (keyLen : Word) (s : State) : Host.Outcome State Fault Refusal :=
  runKey finishAdd (startKey opAdd keyLen s)

/-- CONTAINS after its key phase (rule R133). -/
def finishContains (s : State) : Host.Outcome State Fault Refusal :=
  if s.filter.constructed = false then .next (answerError .notConstructed s.fnvAcc s.mm.hash s)
  else
    match idxDerive s.fnvAcc s.mm.hash s with
    | none => .fault .zeroDivisor
    | some t =>
      match baTest3 t.idx.pos1 t.idx.pos2 t.idx.pos3 t with
      | none => .fault .noSuchCell
      | some bits => .next (respond .ok (baHit bits) t.idx.h1 t.idx.h2 t)

/-- CONTAINS (rule R133). -/
def execContains (keyLen : Word) (s : State) : Host.Outcome State Fault Refusal :=
  runKey finishContains (startKey opContains keyLen s)

/-- CLEAR (rule R134): `ARG` is ignored; `SIZE` and `CONSTRUCTED` stay. -/
def execClear (_ignored : Word) (s : State) : Host.Outcome State Fault Refusal :=
  let s := latchOp opClear s
  .next <|
    if s.filter.constructed = false then answerError .notConstructed 0#32 0#32 s
    else respond .ok 0#1 0#32 0#32 (baClearAll s.filter.size s)

end Sys2Proof.Machine
end

