-- ==== Sys2Proof/Machine/Dispatch.lean ====
section
/-! DEFINITION. The meaning of each command: one arm per constructor of Instr. -/

namespace Sys2Proof.Machine

def exec (i : Instr) (s : State) : Host.Outcome State Fault Refusal :=
  match i with
  | .create size => Sys2Proof.Machine.execCreate size s
  | .add keyLen => Sys2Proof.Machine.execAdd keyLen s
  | .contains keyLen => Sys2Proof.Machine.execContains keyLen s
  | .clear ignored => Sys2Proof.Machine.execClear ignored s

end Sys2Proof.Machine
end

