-- ==== Sys2Proof/Machine/Sequencer.lean ====
section
/-! DEFINITION. What the core does next: the reset edge, the handing over of a response, waiting, a command in progress,
or the next command word (rules R61, R130, R170, R175, R176). -/

namespace Sys2Proof.Machine

/-- What one step does. -/
inductive Action where
  /-- An edge with `rst = 1` (rule R170). -/
  | resetEdge
  /-- The response `w` is transferred to the host (rules R61, R176). -/
  | handOver (w : RspWord) (rest : List RspWord)
  /-- The core waits: for the host to take the response, or for a command word (rules R170, R176). -/
  | wait
  /-- The command in progress goes on with the key bytes offered since (rule R175). -/
  | resume
  /-- The command word `w` is transferred to the core and its command runs (rule R130). -/
  | accept (w : CmdWord) (rest : List CmdWord)
deriving DecidableEq, Repr

/-- What the core does next in a state. A response is handed over before another command word is accepted, as `cmd_ready`
is 1 only when no command is in progress (rules R61, R130; log entry 6). -/
def nextAction (s : State) : Action :=
  if s.chan.rst then .resetEdge
  else
    match s.chan.rspOut with
    | w :: rest => if s.chan.rspReady then .handOver w rest else .wait
    | [] =>
      if s.inProgress then .resume
      else
        match s.chan.cmdIn with
        | [] => .wait
        | w :: rest => .accept w rest

/-- The host takes the oldest response (rules R61, R179). -/
def handOver (w : RspWord) (rest : List RspWord) (s : State) : State :=
  s.setChan { s.chan with rspOut := rest, rspTaken := s.chan.rspTaken ++ [w] }

/-- The command word is off the channel: each word is taken once (rule R61). -/
def popCommand (rest : List CmdWord) (s : State) : State := s.setChan { s.chan with cmdIn := rest }

/-- The preconditions the sequencer keeps while a command is in progress (rules R28, R92). -/
def sequencerOk (s : State) : Bool :=
  (s.seq.cmdOp == opAdd || s.seq.cmdOp == opContains) && decide (s.mm.cnt ≤ 3#3) && decide (s.seq.keyIdx ≤ s.seq.keyLen)

/-- What the command in progress does once its key is complete: `CMD_OP` selects it (rules R28, R132, R133). -/
def finishInProgress (s : State) : Host.Outcome State Fault Refusal :=
  if s.seq.cmdOp = opAdd then finishAdd s else finishContains s

/-- The command in progress goes on (rule R175). -/
def resumeCommand (s : State) : Host.Outcome State Fault Refusal :=
  if sequencerOk s then runKey finishInProgress s else .fault .brokenSequencer

/-- `s` with the command word `w` as the next one, in a core that is ready to take it: no reset, no command in progress,
no response pending. -/
def readyWithCommand (w : CmdWord) (s : State) : State :=
  (s.setInProgress false).setChan { s.chan with rst := false, rspOut := [], cmdIn := w :: s.chan.cmdIn }

end Sys2Proof.Machine
end

