-- ==== Sys2Proof/Machine/Step.lean ====
section
/-! DEFINITION. One step of the machine, and a state whose next step runs a given command word. -/

namespace Sys2Proof.Machine

/-- One step: one command as one atomic transition, or one event of the channels (rules R20, R61, R130, R170; log
entry 1). -/
def step (s : State) : Host.Outcome State Fault Refusal :=
  match nextAction s with
  | .resetEdge => .next (applyReset s)
  | .handOver w rest => .next (handOver w rest s)
  | .wait => .next s
  | .resume => resumeCommand s
  | .accept w rest => exec (decode w) (popCommand rest s)

/-- `s` with the table word `w` of `nbits` bits as the command word that the very next step takes. The core has no
program: a command comes from the host, and this stands for the host offering the word (rule R31; log entry 5). -/
def State.withFetchWord (s : State) (nbits w : Nat) : State :=
  readyWithCommand (BitVec.ofNat 34 (w % 2 ^ nbits)) s

end Sys2Proof.Machine
end

