-- ==== Sys2Proof/Machine/HostSide.lean ====
section
/-! DEFINITION. What the host can do: its moves on the channels and pins, and whole commands with their keys
(rules R20, R61, R178). -/

namespace Sys2Proof.Machine

/-- The host's moves. There is none that changes or withdraws a word already offered (rule R178: the host obeys the
handshake; log entry 12). -/
inductive HostMove where
  /-- Offer one more command word. -/
  | offerCommand (w : CmdWord)
  /-- Offer more key bytes, in key order (rule R47). -/
  | offerKey (bytes : List Byte)
  /-- Drive the pin `rst`. -/
  | driveRst (level : Bool)
  /-- Drive the pin `rsp_ready`. -/
  | driveRspReady (level : Bool)
deriving DecidableEq, Repr

/-- What a move of the host does to the channels. -/
def HostMove.apply (m : HostMove) (s : State) : State :=
  match m with
  | .offerCommand w => s.setChan { s.chan with cmdIn := s.chan.cmdIn ++ [w] }
  | .offerKey bytes => s.setChan { s.chan with keyIn := s.chan.keyIn ++ bytes }
  | .driveRst level => s.setChan { s.chan with rst := level }
  | .driveRspReady level => s.setChan { s.chan with rspReady := level }

/-- One event of a run: a move of the host or a step of the core (rule R20). -/
inductive Event where
  | host (m : HostMove)
  | step
deriving DecidableEq, Repr

/-- A run: the events in order, stopping at the first fault (rule R179). -/
def runEvents : List Event → State → Host.Outcome State Fault Refusal
  | [], s => .next s
  | .host m :: es, s => runEvents es (m.apply s)
  | .step :: es, s =>
    match step s with
    | .next t => runEvents es t
    | .fault r => .fault r
    | .refused r => .refused r

/-- A whole command: its word and the key bytes that belong to it (rule R69). -/
structure Transaction where
  instr : Instr
  key : List Byte
deriving DecidableEq, Repr

/-- The host's duty on a whole command: exactly `KEY_LEN` key bytes (rule R178). -/
def Transaction.wellFormed (t : Transaction) : Bool := t.key.length == t.instr.keyBytes

/-- A whole command as one atomic transition, its key bytes offered with it (rules R69, R130). -/
def transact (t : Transaction) (s : State) : Host.Outcome State Fault Refusal :=
  exec t.instr ((HostMove.offerKey t.key).apply s)

/-- A command sequence (rule R179). -/
def transactAll : List Transaction → State → Host.Outcome State Fault Refusal
  | [], s => .next s
  | t :: ts, s =>
    match transact t s with
    | .next u => transactAll ts u
    | .fault r => .fault r
    | .refused r => .refused r

/-- The events by which the host issues a whole command: the word, the key bytes, a step that runs it and a step that
hands its response over. -/
def Transaction.events (t : Transaction) : List Event :=
  [.host (.offerCommand (encode t.instr)), .host (.offerKey t.key), .step, .step]

end Sys2Proof.Machine
end

