-- ==== Sys2Proof/Machine/Assembler.lean ====
section
/-! DEFINITION. The text form of command sequences (rule R70): one line is one command with its key bytes, or `.reset`,
and may carry the response it expects (log entry 13). -/

namespace Sys2Proof.Machine

/-- One line of the text form (rule R70). -/
inductive Line where
  | create (n : Word)
  | add (key : List Byte)
  | contains (key : List Byte)
  | clear
  /-- The directive `.reset`: one clock edge with `rst = 1`. -/
  | reset
deriving DecidableEq, Repr

/-- The response a line expects, after `->`: a status, and where written a result and the two hashes. -/
structure Expected where
  status : Status
  result : Option Bit
  h1 : Option Word
  h2 : Option Word
deriving DecidableEq, Repr

/-- The key length `KEY_LEN` that the assembler computes as the number of bytes; a key of 2^32 bytes or more cannot be
presented (rules R64, R70). -/
def keyLenOf (key : List Byte) : Option Word := if key.length < 2 ^ 32 then some (trunc32 key.length) else none

/-- The command a line stands for; CLEAR's `ARG` is written 0 (rules R64, R70). A directive is no command. -/
def Line.transaction : Line → Option Transaction
  | .create n => some { instr := .create n, key := [] }
  | .add key => (keyLenOf key).map fun len => { instr := .add len, key := key }
  | .contains key => (keyLenOf key).map fun len => { instr := .contains len, key := key }
  | .clear => some { instr := .clear 0#32, key := [] }
  | .reset => none

/-- The events of the directive `.reset`: one clock edge with `rst = 1`. -/
def resetEvents : List Event := [.host (.driveRst true), .step, .host (.driveRst false)]

/-- The events by which a host carries out a line; none for a key that cannot be presented. -/
def Line.events : Line → Option (List Event)
  | .reset => some resetEvents
  | .create n => (Line.create n).transaction.map Transaction.events
  | .add key => (Line.add key).transaction.map Transaction.events
  | .contains key => (Line.contains key).transaction.map Transaction.events
  | .clear => Line.clear.transaction.map Transaction.events

/-- Whether a response word is the one a line expects. -/
def Expected.holds (e : Expected) (w : RspWord) : Bool :=
  rspStatus w == e.status.code && e.result.all (rspResult w == ·) && e.h1.all (rspH1 w == ·) && e.h2.all (rspH2 w == ·)

/-! ### Reading a line -/

/-- The double quote. -/
def quoteChar : Char := Char.ofNat 34

/-- The text after a keyword. -/
def afterWord : List Char → List Char → Option (List Char)
  | [], cs => some cs
  | _ :: _, [] => none
  | p :: ps, c :: cs => if p = c then afterWord ps cs else none

/-- The value of a decimal digit. -/
def decDigit (c : Char) : Option Nat := if 48 ≤ c.toNat ∧ c.toNat ≤ 57 then some (c.toNat - 48) else none

/-- The value of a hexadecimal digit. -/
def hexDigit (c : Char) : Option Nat :=
  if 97 ≤ c.toNat ∧ c.toNat ≤ 102 then some (c.toNat - 87)
  else if 65 ≤ c.toNat ∧ c.toNat ≤ 70 then some (c.toNat - 55)
  else decDigit c

/-- A number in a base, from its digits. -/
def digits (base : Nat) (digit : Char → Option Nat) (cs : List Char) : Option Nat :=
  if cs.isEmpty then none
  else cs.foldl (fun acc c => acc.bind fun n => (digit c).map fun d => base * n + d) (some 0)

/-- A number `0 .. 4294967295`, decimal or `0x`-hexadecimal. -/
def wordOf (cs : List Char) : Option Word :=
  let n := match afterWord "0x".toList cs with
    | some hs => digits 16 hexDigit hs
    | none => digits 10 decDigit cs
  n.bind fun n => if n < 2 ^ 32 then some (trunc32 n) else none

/-- The characters up to the closing quote, and what follows it. -/
def upToQuote : List Char → Option (List Char × List Char)
  | [] => none
  | c :: cs => if c = quoteChar then some ([], cs) else (upToQuote cs).map fun (a, r) => (c :: a, r)

/-- The bytes of a quoted text: only `0x20 .. 0x7E` are allowed, each the byte of its number. -/
def textBytes : List Char → Option (List Byte)
  | [] => some []
  | c :: cs =>
    if 0x20 ≤ c.toNat ∧ c.toNat ≤ 0x7E then (textBytes cs).map (BitVec.ofNat 8 c.toNat :: ·) else none

/-- The bytes of pairs of hexadecimal digits. -/
def hexBytes : List Char → Option (List Byte)
  | [] => some []
  | [_] => none
  | a :: b :: cs =>
    match hexDigit a, hexDigit b, hexBytes cs with
    | some x, some y, some r => some (BitVec.ofNat 8 (16 * x + y) :: r)
    | _, _, _ => none

/-- A key operand, quoted text or `x` and quoted hexadecimal, and what follows it. -/
def keyOperand (cs : List Char) : Option (List Byte × List Char) :=
  match cs with
  | [] => none
  | c :: r =>
    if c = quoteChar then (upToQuote r).bind fun (a, r) => (textBytes a).map (·, r)
    else
      match afterWord ['x', quoteChar] cs with
      | some r => (upToQuote r).bind fun (a, r) => (hexBytes a).map (·, r)
      | none => none

/-- The words of a text, cut at spaces. -/
def splitWords : List Char → List (List Char)
  | [] => []
  | c :: cs =>
    if c = ' ' then [] :: splitWords cs
    else
      match splitWords cs with
      | [] => [[c]]
      | w :: ws => (c :: w) :: ws

/-- A status by its name. -/
def statusOf (cs : List Char) : Option Status :=
  if cs = "OK".toList then some .ok
  else if cs = "INVALID_ARGUMENT".toList then some .invalidArgument
  else if cs = "NOT_CONSTRUCTED".toList then some .notConstructed
  else if cs = "CAPACITY".toList then some .capacity
  else none

/-- One more field of an expected response. -/
def expectedField (e : Expected) (cs : List Char) : Option Expected :=
  if cs = "RESULT=1".toList then some { e with result := some 1#1 }
  else if cs = "RESULT=0".toList then some { e with result := some 0#1 }
  else
    match afterWord "H1=".toList cs, afterWord "H2=".toList cs with
    | some v, _ => (wordOf v).map fun w => { e with h1 := some w }
    | none, some v => (wordOf v).map fun w => { e with h2 := some w }
    | none, none => none

/-- What follows a command on its line: nothing, or `->` and the expected response. -/
def expectedOf (cs : List Char) : Option (Option Expected) :=
  match (splitWords cs).filter (!·.isEmpty) with
  | [] => some none
  | arrow :: rest =>
    if arrow = "->".toList then
      match rest with
      | [] => none
      | st :: fields =>
        (statusOf st).bind fun st =>
          (fields.foldl (fun acc f => acc.bind (expectedField · f))
            (some { status := st, result := none, h1 := none, h2 := none })).map some
    else none

/-- One line of the text form, and the response it expects if it names one (rule R70). -/
def parseLine (cs : List Char) : Option (Line × Option Expected) :=
  match afterWord "CREATE ".toList cs, afterWord "ADD ".toList cs, afterWord "CONTAINS ".toList cs,
      afterWord "CLEAR".toList cs, afterWord ".reset".toList cs with
  | some r, _, _, _, _ =>
    (wordOf (r.takeWhile (· != ' '))).bind fun n =>
      (expectedOf (r.dropWhile (· != ' '))).map (Line.create n, ·)
  | none, some r, _, _, _ => (keyOperand r).bind fun (k, r) => (expectedOf r).map (Line.add k, ·)
  | none, none, some r, _, _ => (keyOperand r).bind fun (k, r) => (expectedOf r).map (Line.contains k, ·)
  | none, none, none, some r, _ => (expectedOf r).map (Line.clear, ·)
  | none, none, none, none, some r => if r.isEmpty then some (Line.reset, none) else none
  | none, none, none, none, none => none

end Sys2Proof.Machine
end

