-- ==== Sys2Proof/Machine/Ports.lean ====
section
/-! DEFINITION. The ports: the three channels of `bloom_core` and the data ports of its four units (rules R60, R61, R71). -/

namespace Sys2Proof.Machine

/-! ### `bloom_core` (rules R60, R61, R170) -/

/-- `cmd_valid`: the host offers a command word. -/
def cmdValid (s : State) : Bool := !s.chan.cmdIn.isEmpty

/-- `cmd_ready`: 1 only when no command is in progress, a command being over when its response is taken, and 0 while
`rst = 1` (rules R61, R130, R170). -/
def cmdReady (s : State) : Bool := !s.chan.rst && !s.inProgress && s.chan.rspOut.isEmpty

/-- `key_valid`: the host offers a key byte. -/
def keyValid (s : State) : Bool := !s.chan.keyIn.isEmpty

/-- `key_ready`: 1 only while an ADD or CONTAINS in progress still has `KEY_IDX < KEY_LEN`, and 0 while `rst = 1`
(rules R61, R170). -/
def keyReady (s : State) : Bool := !s.chan.rst && s.inProgress && decide (s.seq.keyIdx < s.seq.keyLen)

/-- `rsp_valid`: the core offers a response word; 0 while `rst = 1` (rules R60, R170, R176). -/
def rspValid (s : State) : Bool := !s.chan.rst && !s.chan.rspOut.isEmpty

/-- `rsp_word`, where `rsp_valid = 1`: the oldest response not yet taken (rules R60, R176; log entry 14). -/
def rspWordOut (s : State) : Option RspWord := if rspValid s then s.chan.rspOut.head? else none

/-- A command word is transferred at this edge (rule R61). -/
def cmdTransfer (s : State) : Bool := cmdValid s && cmdReady s

/-- A key byte is transferred at this edge (rule R61). -/
def keyTransfer (s : State) : Bool := keyValid s && keyReady s

/-- A response word is transferred at this edge (rule R61). -/
def rspTransfer (s : State) : Bool := rspValid s && s.chan.rspReady

/-! ### The units (rule R71) -/

/-- The data ports that join the units, in a state and with a byte on `key_byte`. Rule R71 says what a port carries at the
micro-operation that uses it; what it shows at any other time is the model's choice (log entry 14). -/
structure UnitPorts where
  /-- `fnv_sym`: the key byte, zero-extended. -/
  fnvSym : Word
  /-- `fnv_hash`: `FNV_ACC`. -/
  fnvHash : Word
  /-- `mm_byte`: the key byte. -/
  mmByte : Byte
  /-- `mm_len`: `KEY_LEN`. -/
  mmLen : Word
  /-- `mm_hash`: `MM_HASH`. -/
  mmHash : Word
  /-- `idx_h1`: `fnv_hash`. -/
  idxH1 : Word
  /-- `idx_h2`: `mm_hash`. -/
  idxH2 : Word
  /-- `idx_size`: `SIZE`. -/
  idxSize : Word
  /-- `idx_pos1`, and `ba_pos1`. -/
  pos1 : Word
  /-- `idx_pos2`, and `ba_pos2`. -/
  pos2 : Word
  /-- `idx_pos3`, and `ba_pos3`. -/
  pos3 : Word
  /-- `ba_bits`: the three bits BA_TEST3 reads. In every state, with BA_TEST3 performed or not, the model shows the live
  cells at `POS1`, `POS2`, `POS3`, and nothing where one of them does not exist (DESIGN CHOICE, log entry 14). -/
  baBits : Option (BitVec 3)
  /-- `ba_hit`: the AND of the three bits, shown whenever `ba_bits` is (DESIGN CHOICE, log entry 14). -/
  baHit : Option Bit
deriving DecidableEq, Repr

/-- The values on the unit ports (rule R71). `ba_size`, the bound of a bulk clear, is the operand of `baClearAll`. The
operand ports and `ba_bits`, `ba_hit` follow the registers and the cells in every state, also while no micro-operation uses
them, which the spec leaves open (DESIGN CHOICE, log entry 14). -/
def unitPorts (keyByte : Byte) (s : State) : UnitPorts where
  fnvSym := zext32 keyByte
  fnvHash := s.fnvAcc
  mmByte := keyByte
  mmLen := s.seq.keyLen
  mmHash := s.mm.hash
  idxH1 := s.fnvAcc
  idxH2 := s.mm.hash
  idxSize := s.filter.size
  pos1 := s.idx.pos1
  pos2 := s.idx.pos2
  pos3 := s.idx.pos3
  baBits := baTest3 s.idx.pos1 s.idx.pos2 s.idx.pos3 s
  baHit := (baTest3 s.idx.pos1 s.idx.pos2 s.idx.pos3 s).map baHit

end Sys2Proof.Machine
end

