-- ==== Sys2Proof/Machine/Edge.lean ====
section
/-! DEFINITION. The same core one clock edge at a time: at most one transfer on each channel an edge (rules R60, R61,
R170). It is one legal schedule of many (rule R177; log entry 9); `step` is the normative atomic view (rule R130). -/

namespace Sys2Proof.Machine

/-- The edge at which a command word is transferred: CREATE and CLEAR have their effect, ADD and CONTAINS start their
key phase. -/
def startCommand (i : Instr) (s : State) : Host.Outcome State Fault Refusal :=
  match i with
  | .create size => execCreate size s
  | .add keyLen => .next (startKey opAdd keyLen s)
  | .contains keyLen => .next (startKey opContains keyLen s)
  | .clear ignored => execClear ignored s

/-- An edge inside the key phase: one key byte is transferred if one is offered; when all are there the command
finishes (rules R61, R135, R175). -/
def keyEdge (s : State) : Host.Outcome State Fault Refusal :=
  if s.seq.keyIdx < s.seq.keyLen then
    match keyNext s with
    | none => .next s
    | some (b, t) => .next (takeByte b t)
  else finishInProgress (endKey s)

/-- One rising edge of `clk`. -/
def edge (s : State) : Host.Outcome State Fault Refusal :=
  match nextAction s with
  | .resetEdge => .next (applyReset s)
  | .handOver w rest => .next (handOver w rest s)
  | .wait => .next s
  | .resume => if sequencerOk s then keyEdge s else .fault .brokenSequencer
  | .accept w rest => startCommand (decode w) (popCommand rest s)

/-- `n` rising edges, stopping at the first fault. -/
def edges : Nat → State → Host.Outcome State Fault Refusal
  | 0, s => .next s
  | n + 1, s =>
    match edge s with
    | .next t => edges n t
    | .fault r => .fault r
    | .refused r => .refused r

end Sys2Proof.Machine
end

