-- ==== Sys2Proof/Safety.lean ====
section
/-! DEFINITION. What a safe state and a safe run are: the invariant, the frames, and the terms claims use. -/

namespace Sys2Proof.Machine

/-- While a command is in progress its registers are those of some `taken` key bytes: the bytes already taken
(rules R26 to R28, R83, R95). -/
structure KeyProgress (s : State) (taken : List Byte) : Prop where
  op : s.seq.cmdOp = opAdd ∨ s.seq.cmdOp = opContains
  idx : s.seq.keyIdx.toNat = taken.length
  len : taken.length ≤ s.seq.keyLen.toNat
  fnv : s.fnvAcc = fnvHash taken
  mm : s.mm = murmurRegs taken

/-- Rule R24, the size invariant, with the canonical form of the array: an instance has `1 <= SIZE <= NMAX` cells, and
without one there is no size and no cell. -/
structure FilterInv (c : Config) (f : Filter) : Prop where
  size_range : f.constructed = true → 1 ≤ f.size.toNat ∧ f.size.toNat ≤ c.nmax.toNat
  no_instance : f.constructed = false → f.size = 0#32 ∧ f.cells = []
  canonical : Memory.wf f.cells
  in_array : ∀ c ∈ f.cells, c.1 < f.size.toNat

/-- The invariant of the machine (rules R5, R24, R27, R28). `one_response` is the model's choice: a command is over for
`cmd_ready` when its response is taken, where rule R176 leaves a device more room (log entry 6). The canonical form of the
cells, in `FilterInv`, is the model's form of the array (log entry 8). -/
structure Inv (s : State) : Prop where
  legal : s.cfg.Legal
  filter : FilterInv s.cfg s.filter
  count : s.mm.cnt.toNat ≤ 4
  one_response : s.chan.rspOut.length ≤ 1
  progress : s.inProgress = true → s.chan.rspOut = [] ∧ ∃ taken, KeyProgress s taken

/-- The core is ready for a command word and nothing is pending (rule R130). -/
structure Idle (s : State) : Prop where
  no_reset : s.chan.rst = false
  no_command : s.inProgress = false
  no_response : s.chan.rspOut = []

/-- The frame of a command: the parameter, the pins, the command channel and the record of responses taken are not its
to change. The filter state, the key channel and the response channel are said in each statement; the working registers
hold nothing between commands (rule R34). -/
structure CommandFrame (s t : State) : Prop where
  cfg : t.cfg = s.cfg
  rst : t.chan.rst = s.chan.rst
  rspReady : t.chan.rspReady = s.chan.rspReady
  cmdIn : t.chan.cmdIn = s.chan.cmdIn
  rspTaken : t.chan.rspTaken = s.chan.rspTaken

/-- A command that is over: its one response stands last on the response channel (rules R66, R130). -/
structure Answered (s t : State) (st : Status) (res : Bit) (a b : Word) : Prop where
  finished : t.inProgress = false
  response : t.chan.rspOut = s.chan.rspOut ++ [rspWord st res a b]

/-- Every cell of the array, existing or not, reads the same. -/
def SameCells (s t : State) : Prop := ∀ i : Word, cellRead i t = cellRead i s

/-- The key of a filter is present: the three cells at its positions are all 1 (rules R116, R137). -/
def KeyPresent (key : List Byte) (s : State) : Prop :=
  ∃ p1 p2 p3, positions key s.filter.size = some (p1, p2, p3) ∧
    cellRead p1 s = some 1#1 ∧ cellRead p2 s = some 1#1 ∧ cellRead p3 s = some 1#1

/-- A CREATE that succeeds (rule R131). -/
def createSucceeds (size : Word) (s : State) : Prop := size ≠ 0#32 ∧ size.toNat ≤ s.cfg.nmax.toNat

/-- The commands that zero the array: CLEAR and a successful CREATE (rules R25, R119). -/
def zeroesCells (i : Instr) (s : State) : Prop :=
  match i with
  | .create size => createSucceeds size s
  | .add _ => False
  | .contains _ => False
  | .clear _ => True

/-- What is visible of a state between commands: all but the working registers and the free-value counter (rule R34). -/
structure View where
  cfg : Config
  filter : Filter
  inProgress : Bool
  chan : Channels
deriving DecidableEq, Repr

/-- What is visible of a state between commands. -/
def view (s : State) : View :=
  { cfg := s.cfg, filter := s.filter, inProgress := s.inProgress, chan := s.chan }

/-- Two outcomes that show the same: next states of one view, or one fault or refusal. -/
def SameShown (x y : Host.Outcome State Fault Refusal) : Prop :=
  match x, y with
  | .next s, .next t => view s = view t
  | .fault r, .fault r' => r = r'
  | .refused r, .refused r' => r = r'
  | _, _ => False

/-- The responses of a run so far, oldest first: those taken and those still offered (rule R179). -/
def responses (s : State) : List RspWord := s.chan.rspTaken ++ s.chan.rspOut

end Sys2Proof.Machine
end

