-- ==== Sys2Proof/Certificates/Slice0/Obligations.lean ====
section
/-! DEFINITION. The statements for the provers. Each docstring names the rules of the spec it formalises. -/

open Sys2Proof Sys2Proof.Machine

/-! ### Arithmetic (00_scope.md) -/

/-- Rules R7 to R10: product and sum modulo 2^32 with the rules' corner cases, exclusive-or bit by bit, and the logical
right shift. -/
def Obligations.PrimitivesWrapModuloTwoPow32 : Prop :=
  ∀ a b : Word,
    (mul32 a b).toNat = (a.toNat * b.toNat) % 2 ^ 32 ∧
    mul32 a 0#32 = 0#32 ∧ mul32 a 1#32 = a ∧ mul32 0x80000000#32 2#32 = 0#32 ∧
    mul32 0xFFFFFFFF#32 0xFFFFFFFF#32 = 1#32 ∧ mul32 a 2#32 = a <<< 1 ∧
    (add32 a b).toNat = (a.toNat + b.toNat) % 2 ^ 32 ∧ add32 0xFFFFFFFF#32 1#32 = 0#32 ∧
    (∀ i, (xor32 a b).getLsbD i = (a.getLsbD i ^^ b.getLsbD i)) ∧
    (∀ n, 0 < n → n < 32 → (shr32 a n).toNat = a.toNat / 2 ^ n ∧
      ∀ i, (shr32 a n).getLsbD i = a.getLsbD (n + i))

/-- Rule R11: the rotation as the rule writes it, and what that makes of each bit: bit `i` goes to bit `i + r`, the bits
above 31 re-entering at bit 0. -/
def Obligations.RotationReentersAtBitZero : Prop :=
  ∀ (a : Word) (r : Nat), 0 < r → r < 32 →
    (rotl32 a r).toNat = (a.toNat * 2 ^ r) % 2 ^ 32 ||| a.toNat / 2 ^ (32 - r) ∧
    (∀ i, i < 32 → (rotl32 a r).getLsbD ((i + r) % 32) = a.getLsbD i) ∧
    rotl32 0x80000001#32 15 = 0x0000C000#32

/-- Rule R12: the unsigned remainder for a divisor above 0, with the rule's corner cases. -/
def Obligations.RemainderIsBelowItsDivisor : Prop :=
  ∀ a n : Word, n ≠ 0#32 →
    ∃ r, umod32 a n = some r ∧
      r.toNat = a.toNat - n.toNat * (a.toNat / n.toNat) ∧ r.toNat < n.toNat ∧
      (n = 1#32 → r = 0#32) ∧ (a.toNat < n.toNat → r = a) ∧ (a = n → r = 0#32) ∧
      (∀ j, j < 32 → n.toNat = 2 ^ j → ∀ i, r.getLsbD i = (decide (i < j) && a.getLsbD i))

/-! ### Words on the channels (30_encoding.md) -/

/-- Decode and encode are inverse to each other: every command survives its word, and every one of the 2^34 words is the
word of exactly one command (rules R62, R63, R68). No bit of a word is dropped, the ignored `ARG` of CLEAR included. -/
def Obligations.DecodeAndEncodeAgree : Prop :=
  (∀ i : Instr, decode (encode i) = i) ∧ (∀ w : CmdWord, encode (decode w) = w)

/-- Rules R63, R64 and R68: a word is an instance of a row of the table exactly when it decodes to that row's command;
every word is an instance of a row; `ARG` is the low 32 bits as they stand. -/
def Obligations.OpcodeFieldSelectsTheCommand : Prop :=
  ∀ w : CmdWord,
    (∀ r ∈ opcodeTable, (w &&& r.mask = r.pattern ↔ (decode w).mnemonic = r.mnemonic)) ∧
    (∃ r ∈ opcodeTable, w &&& r.mask = r.pattern) ∧
    (decode w).op.toNat = w.toNat / 2 ^ 32 ∧ (decode w).arg.toNat = w.toNat % 2 ^ 32

/-- A few of the words that 95_test_vectors.md section 2.6 writes out, as the table numbers their bits. The last clause,
that the first number beyond 34 bits is refused, is no row of that section: it is the model's reading of the channel's
width (rules R60, R62; DEDUCED, log entry 11). -/
def Obligations.WrittenOutWordsDecode : Prop :=
  decodeTableWord 40 0x000000010 = some (.create 16#32) ∧ decodeTableWord 40 0x0FFFFFFFF = some (.create 0xFFFFFFFF#32) ∧
  decodeTableWord 40 0x100000003 = some (.add 3#32) ∧ decodeTableWord 40 0x200000004 = some (.contains 4#32) ∧
  decodeTableWord 40 0x300000000 = some (.clear 0#32) ∧ decodeTableWord 40 0x400000000 = none

/-- Rules R66 and R67: the fields of a response word and the four status codes, as one number and read back. -/
def Obligations.ResponseWordHoldsItsFields : Prop :=
  ∀ (st : Status) (res : Bit) (a b : Word),
    (rspWord st res a b).toNat = st.code.toNat * 2 ^ 65 + res.toNat * 2 ^ 64 + a.toNat * 2 ^ 32 + b.toNat ∧
    rspStatus (rspWord st res a b) = st.code ∧ rspResult (rspWord st res a b) = res ∧
    rspH1 (rspWord st res a b) = a ∧ rspH2 (rspWord st res a b) = b ∧
    Status.ok.code = 0b00#2 ∧ Status.invalidArgument.code = 0b01#2 ∧ Status.notConstructed.code = 0b10#2 ∧
    Status.capacity.code = 0b11#2

/-- Rules R64, R69 and R70: the command that an assembler writes for a line is well formed, with exactly the key bytes
its word announces. -/
def Obligations.AssembledLinesAreWellFormed : Prop :=
  ∀ (l : Line) (t : Transaction), l.transaction = some t → t.wellFormed = true ∧ t.instr.wellFormed = true

/-! ### The hash units (40_fnv_hash_pipe.md, 41_murmur3_hash_pipe.md) -/

/-- Rules R81 and R82: FNV_INIT loads the offset basis; FNV_ABSORB multiplies by 37 first and then XORs the 32-bit symbol
in. Nothing else of the state changes. -/
def Obligations.FnvUnitMultipliesThenXors : Prop :=
  ∀ (s : State) (sym : Word),
    fnvInit s = { s with fnvAcc := 0x811C9DC5#32 } ∧
    fnvAbsorb sym s = { s with fnvAcc := (s.fnvAcc * 37#32) ^^^ sym }

/-- Rules R91, R92, R94 and R96: what each micro-operation of the Murmur unit writes, with nothing else of the state
changed. -/
def Obligations.MurmurUnitWritesItsRegisters : Prop :=
  ∀ (s : State) (b : Byte) (len : Word),
    mmInit s = { s with mm := { hash := 2#32, k := 0#32, cnt := 0#3 } } ∧
    (s.mm.cnt.toNat ≤ 3 → mmPack b s =
      { s with mm := { s.mm with
          k := s.mm.k ||| (b.setWidth 32 <<< (24 - 8 * s.mm.cnt.toNat))
          cnt := BitVec.ofNat 3 (s.mm.cnt.toNat + 1) } }) ∧
    (1 ≤ s.mm.cnt.toNat → s.mm.cnt.toNat ≤ 4 → mmChunk s =
      (let k := ((s.mm.k * 0xCC9E2D51#32).rotateLeft 15) * 0x1B873593#32
       let h := (s.mm.hash ^^^ k).rotateLeft 13
       { s with mm := { hash := h * 5#32 + 0xE6546B64#32, k := 0#32, cnt := 0#3 } })) ∧
    mmFinal len s =
      (let f0 := s.mm.hash ^^^ len
       let f2 := (f0 ^^^ (f0 >>> 16)) * 0x85EBCA6B#32
       let f4 := (f2 ^^^ (f2 >>> 13)) * 0xC2B2AE35#32
       { s with mm := { s.mm with hash := f4 ^^^ (f4 >>> 16) } })

/-- Rules R48 and R92: from an empty chunk the first byte fills bits 31:24, the second 23:16, the third 15:8 and the
fourth 7:0, the lanes not yet filled being 0. -/
def Obligations.ChunkFillsFromTheTop : Prop :=
  ∀ (s : State) (b0 b1 b2 b3 : Byte), s.mm.k = 0#32 → s.mm.cnt = 0#3 →
    (mmPack b0 s).mm.k.toNat = b0.toNat * 2 ^ 24 ∧
    (mmPack b1 (mmPack b0 s)).mm.k.toNat = b0.toNat * 2 ^ 24 + b1.toNat * 2 ^ 16 ∧
    (mmPack b2 (mmPack b1 (mmPack b0 s))).mm.k.toNat = b0.toNat * 2 ^ 24 + b1.toNat * 2 ^ 16 + b2.toNat * 2 ^ 8 ∧
    (mmPack b3 (mmPack b2 (mmPack b1 (mmPack b0 s)))).mm.k.toNat =
      b0.toNat * 2 ^ 24 + b1.toNat * 2 ^ 16 + b2.toNat * 2 ^ 8 + b3.toNat ∧
    (mmPack b3 (mmPack b2 (mmPack b1 (mmPack b0 s)))).mm.cnt = 4#3

/-- Rule R93: a key of `L` bytes is cut into `ceil(L/4)` chunks, and the word of chunk `j` is the sum of its bytes in
their lanes, missing bytes counting as 0. -/
def Obligations.ChunkWordsCutTheKey : Prop :=
  ∀ key : List Byte,
    (chunkWords key).length = (key.length + 3) / 4 ∧
    ∀ (j : Nat) (k : Word), (chunkWords key)[j]? = some k →
      k.toNat = (key.getD (4 * j) 0#8).toNat * 2 ^ 24 + (key.getD (4 * j + 1) 0#8).toNat * 2 ^ 16 +
        (key.getD (4 * j + 2) 0#8).toNat * 2 ^ 8 + (key.getD (4 * j + 3) 0#8).toNat

/-- Corner cases of rules R94 and R96: a zero byte added to a partial chunk changes no chunk word, so the two keys are
told apart by the length in the finalisation alone; and 0 is a fixed point of the mix. It says so of lists of any length:
for one of 2^32 bytes or more, which no command can announce, the length modulo 2^32 is the model's choice (DESIGN CHOICE,
log entry 15). -/
def Obligations.LengthAloneTellsZeroPaddedKeysApart : Prop :=
  (∀ key : List Byte, key.length % 4 ≠ 0 →
    chunkWords (key ++ [0#8]) = chunkWords key ∧
    murmurHash3 key = mmFmix ((chunkWords key).foldl mmMix mmSeed) (trunc32 key.length) ∧
    murmurHash3 (key ++ [0#8]) = mmFmix ((chunkWords key).foldl mmMix mmSeed) (trunc32 (key.length + 1))) ∧
  ∀ h : Word, mmFmix h h = 0#32

/-- Rule R135: the key phase takes the `len` bytes of the key and no more, in order, and the two units then hold
`FnvHash(key)` and `MurmurHash3(key)`, the functions of rules R84 and R97. It reads and writes no filter state. -/
def Obligations.KeyPhaseComputesBothHashes : Prop :=
  ∀ (s : State) (op : BitVec 2) (len : Word) (key rest : List Byte),
    op = opAdd ∨ op = opContains → key.length = len.toNat → s.chan.keyIn = key ++ rest →
    ∃ t, t = endKey (keyLoop s.chan.keyIn (startKey op len s)) ∧
      t.fnvAcc = fnvHash key ∧ t.mm.hash = murmurHash3 key ∧
      t.seq.keyIdx = len ∧ t.seq.keyLen = len ∧
      t.chan = { s.chan with keyIn := rest } ∧ t.filter = s.filter ∧ t.cfg = s.cfg ∧ t.idx = s.idx

/-! ### The indexer (42_bloom_filter_indexer.md) -/

/-- Rules R106 and R107: with `SIZE > 0` IDX_DERIVE writes the two hashes, the third one truncated to 32 bits before any
remainder, and the three remainders; nothing else of the state changes. -/
def Obligations.IndexerReducesThreeHashes : Prop :=
  ∀ (s : State) (a b : Word), s.filter.size ≠ 0#32 →
    idxDerive a b s = some { s with idx :=
      { h1 := a, h2 := b, h3 := a + 2#32 * b, pos1 := a % s.filter.size, pos2 := b % s.filter.size,
        pos3 := (a + 2#32 * b) % s.filter.size } }

/-- Rules R108 and R110: after IDX_DERIVE of a key's hashes the three positions are the key's, a function of the key and
of `SIZE` alone, and each names an existing cell. (For a list of 2^32 bytes or more, which no command can announce,
`murmurHash3` is the model's choice: DESIGN CHOICE, log entry 15.) -/
def Obligations.PositionsAreCellsOfTheKey : Prop :=
  ∀ (s t : State) (key : List Byte), s.filter.constructed = true →
    idxDerive (fnvHash key) (murmurHash3 key) s = some t →
    positions key s.filter.size = some (t.idx.pos1, t.idx.pos2, t.idx.pos3) ∧
    t.idx.pos1.toNat = (fnvHash key).toNat % s.filter.size.toNat ∧
    t.idx.pos2.toNat = (murmurHash3 key).toNat % s.filter.size.toNat ∧
    t.idx.pos3.toNat = ((fnvHash key).toNat + 2 * (murmurHash3 key).toNat) % 2 ^ 32 % s.filter.size.toNat ∧
    cellExists t.idx.pos1 s = true ∧ cellExists t.idx.pos2 s = true ∧ cellExists t.idx.pos3 s = true

/-! ### The bit array (20_memory.md, 43_bloom_bitarray_ctrl.md) -/

/-- Rules R43, R44 and R45, for an existing cell of an array in canonical form: CellSet makes its cell 1 and CellZero
makes it 0, every other cell reads as before, nothing else of the state changes, and a cell read again gives the same
bit. -/
def Obligations.CellPrimitivesTouchOneCell : Prop :=
  ∀ (s : State) (i : Word), FilterInv s.cfg s.filter → cellExists i s = true →
    (∃ b, cellRead i s = some b) ∧
    (∃ t, cellSet i s = some t ∧ (∀ j, cellRead j t = if j = i then some 1#1 else cellRead j s) ∧
      t = { s with filter := { s.filter with cells := t.filter.cells } } ∧ cellSet i t = some t) ∧
    (∀ j, cellRead j (cellZero i s) = if j = i then some 0#1 else cellRead j s) ∧
    cellZero i s = { s with filter := { s.filter with cells := (cellZero i s).filter.cells } }

/-- Rule R116: BA_TEST3 of three existing cells gives each cell's bit on its own port, and `HIT = 1` if and only if all
three are 1. Equal positions give the same bit (rule R120). -/
def Obligations.TestThreeIsTheAnd : Prop :=
  ∀ (s : State) (p1 p2 p3 : Word),
    cellExists p1 s = true → cellExists p2 s = true → cellExists p3 s = true →
    ∃ bits, baTest3 p1 p2 p3 s = some bits ∧
      cellRead p1 s = some (bits.extractLsb' 0 1) ∧ cellRead p2 s = some (bits.extractLsb' 1 1) ∧
      cellRead p3 s = some (bits.extractLsb' 2 1) ∧
      (baHit bits = 1#1 ↔ cellRead p1 s = some 1#1 ∧ cellRead p2 s = some 1#1 ∧ cellRead p3 s = some 1#1)

/-- Rules R117 and R120: BA_SET3 makes its three cells 1, whichever of the positions are equal, leaves every other cell
and everything else of the state as it was, and a repetition changes nothing. The clause that the filter invariant is kept
says among other things that the cells stay in canonical form, which is the model's form of the array (DEDUCED, log
entry 8). -/
def Obligations.SetThreeSetsExactlyItsCells : Prop :=
  ∀ (s : State) (p1 p2 p3 : Word), FilterInv s.cfg s.filter →
    cellExists p1 s = true → cellExists p2 s = true → cellExists p3 s = true →
    ∃ t, baSet3 p1 p2 p3 s = some t ∧
      (∀ i, cellRead i t = if i = p1 ∨ i = p2 ∨ i = p3 then some 1#1 else cellRead i s) ∧
      t = { s with filter := { s.filter with cells := t.filter.cells } } ∧
      FilterInv t.cfg t.filter ∧ baSet3 p1 p2 p3 t = some t

/-- Rule R118: after BA_CLEAR_ALL `n` every cell below `n` holds 0, and nothing but the cells has changed. -/
def Obligations.ClearAllZeroesEveryCellBelow : Prop :=
  ∀ (s : State) (n : Word),
    (∀ i, i < n.toNat → Memory.read (baClearAll n s).filter.cells i = 0#1) ∧
    baClearAll n s = { s with filter := { s.filter with cells := (baClearAll n s).filter.cells } }

/-! ### The commands (44_commands.md, 60_exceptions.md) -/

/-- Rule R131: CREATE is opcode 0b00 and takes no key byte. It answers INVALID_ARGUMENT for `ARG = 0` and CAPACITY for
`ARG > NMAX`, both with no change of filter state, and else constructs a filter of `ARG` cells, all 0, in any state, an
existing instance replaced; no key is then present. -/
def Obligations.CreateConstructsOrRefuses : Prop :=
  ∀ (s : State) (size : Word),
    (Instr.create size).op = 0b00#2 ∧ (Instr.create size).arg = size ∧
    ∃ t, exec (.create size) s = .next t ∧ t.chan.keyIn = s.chan.keyIn ∧ CommandFrame s t ∧
      (size = 0#32 → Answered s t .invalidArgument 0#1 0#32 0#32 ∧ t.filter = s.filter) ∧
      (s.cfg.nmax.toNat < size.toNat → Answered s t .capacity 0#1 0#32 0#32 ∧ t.filter = s.filter) ∧
      (size ≠ 0#32 → size.toNat ≤ s.cfg.nmax.toNat →
        Answered s t .ok 0#1 0#32 0#32 ∧ t.filter.size = size ∧ t.filter.constructed = true ∧
        (∀ i : Word, cellRead i t = if i.toNat < size.toNat then some 0#1 else none) ∧
        ∀ key, ¬ KeyPresent key t)

/-- Rule R132: ADD is opcode 0b01. With its whole key on the key channel it takes exactly its key bytes and reports the
key's two hashes. With no filter it answers NOT_CONSTRUCTED and changes no filter state; with one it answers OK with
`RESULT = 0` and sets the three cells at the key's positions, which may be equal, and no other. `SIZE` and `CONSTRUCTED`
stay. -/
def Obligations.AddSetsTheCellsOfItsKey : Prop :=
  ∀ (s : State) (len : Word) (key rest : List Byte), FilterInv s.cfg s.filter →
    key.length = len.toNat → s.chan.keyIn = key ++ rest →
    (Instr.add len).op = 0b01#2 ∧ (Instr.add len).arg = len ∧
    ∃ t, exec (.add len) s = .next t ∧ t.chan.keyIn = rest ∧ CommandFrame s t ∧
      t.filter.size = s.filter.size ∧ t.filter.constructed = s.filter.constructed ∧
      (s.filter.constructed = false →
        Answered s t .notConstructed 0#1 (fnvHash key) (murmurHash3 key) ∧ t.filter = s.filter) ∧
      (s.filter.constructed = true → Answered s t .ok 0#1 (fnvHash key) (murmurHash3 key) ∧
        ∃ p1 p2 p3, positions key s.filter.size = some (p1, p2, p3) ∧
          ∀ i, cellRead i t = if i = p1 ∨ i = p2 ∨ i = p3 then some 1#1 else cellRead i s)

/-- Rule R133: CONTAINS is opcode 0b10. With its whole key on the key channel it takes exactly its key bytes, reports the
key's two hashes and changes no filter state. With no filter it answers NOT_CONSTRUCTED with `RESULT = 0`; with one it
answers OK with `RESULT = 1` if and only if the three cells at the key's positions are all 1. -/
def Obligations.ContainsAnswersTheAndOfItsCells : Prop :=
  ∀ (s : State) (len : Word) (key rest : List Byte), FilterInv s.cfg s.filter →
    key.length = len.toNat → s.chan.keyIn = key ++ rest →
    (Instr.contains len).op = 0b10#2 ∧ (Instr.contains len).arg = len ∧
    ∃ t, exec (.contains len) s = .next t ∧ t.chan.keyIn = rest ∧ CommandFrame s t ∧ t.filter = s.filter ∧
      (s.filter.constructed = false → Answered s t .notConstructed 0#1 (fnvHash key) (murmurHash3 key)) ∧
      (s.filter.constructed = true → ∃ res, Answered s t .ok res (fnvHash key) (murmurHash3 key) ∧
        (res = 1#1 ↔ KeyPresent key s))

/-- Rule R134: CLEAR is opcode 0b11, takes no key byte and does the same whatever its `ARG`. With no filter it answers
NOT_CONSTRUCTED and changes no filter state; with one it answers OK and makes every cell 0. `SIZE` and `CONSTRUCTED`
stay. -/
def Obligations.ClearZeroesEveryCell : Prop :=
  ∀ (s : State) (ignored : Word),
    (Instr.clear ignored).op = 0b11#2 ∧ exec (.clear ignored) s = exec (.clear 0#32) s ∧
    ∃ t, exec (.clear ignored) s = .next t ∧ t.chan.keyIn = s.chan.keyIn ∧ CommandFrame s t ∧
      t.filter.size = s.filter.size ∧ t.filter.constructed = s.filter.constructed ∧
      (s.filter.constructed = false → Answered s t .notConstructed 0#1 0#32 0#32 ∧ t.filter = s.filter) ∧
      (s.filter.constructed = true → Answered s t .ok 0#1 0#32 0#32 ∧
        ∀ i : Word, cellRead i t = if i.toNat < s.filter.size.toNat then some 0#1 else none)

/-- Rules R151, R152 and R153, read the other way: an error answer is given by exactly the commands and conditions the
rules name, with the codes and fields they name, no filter state changed and the key bytes of the command taken. -/
def Obligations.ErrorStatusesAreExact : Prop :=
  (Status.invalidArgument.code = 0b01#2 ∧ Status.notConstructed.code = 0b10#2 ∧ Status.capacity.code = 0b11#2) ∧
  ∀ (i : Instr) (s t : State) (st : Status) (res : Bit) (a b : Word),
    exec i s = .next t → Answered s t st res a b →
    (st = .invalidArgument ↔ i = .create 0#32) ∧
    (st = .capacity ↔ ∃ size, i = .create size ∧ s.cfg.nmax.toNat < size.toNat) ∧
    (st = .notConstructed ↔ s.filter.constructed = false ∧ ∀ size, i ≠ .create size) ∧
    (st ≠ .ok → res = 0#1 ∧ t.filter = s.filter ∧ t.chan.keyIn = s.chan.keyIn.drop i.keyBytes) ∧
    ((∃ size, i = .create size) ∨ (∃ x, i = .clear x) → a = 0#32 ∧ b = 0#32) ∧
    (∀ len, i = .add len ∨ i = .contains len →
      a = fnvHash (s.chan.keyIn.take len.toNat) ∧ b = murmurHash3 (s.chan.keyIn.take len.toNat))

/-- Rule R175: an ADD or CONTAINS with fewer key bytes on the channel than `KEY_LEN` takes what there is and waits, in
progress, with no response and no change of filter state; a further step with no byte offered changes nothing at all. -/
def Obligations.KeyCommandWaitsForItsBytes : Prop :=
  ∀ (s : State) (len : Word) (i : Instr), i = .add len ∨ i = .contains len → s.chan.keyIn.length < len.toNat →
    ∃ t, exec i s = .next t ∧ t.inProgress = true ∧ KeyProgress t s.chan.keyIn ∧ t.seq.keyLen = len ∧
      t.seq.cmdOp = i.op ∧ t.filter = s.filter ∧ t.chan = { s.chan with keyIn := [] } ∧ t.cfg = s.cfg ∧
      (s.chan.rst = false → s.chan.rspOut = [] → step t = .next t)

/-- Rules R69 and R175: when the key bytes come does not matter. A key command that ran dry after the bytes `early` and is
continued by a step once `late` has been offered ends as the same command with all its bytes there from the start. -/
def Obligations.LateKeyBytesChangeNothing : Prop :=
  ∀ (s t : State) (len : Word) (i : Instr) (early late : List Byte),
    i = .add len ∨ i = .contains len → s.chan.rst = false → s.chan.rspOut = [] →
    s.chan.keyIn = early → early.length < len.toNat → exec i s = .next t →
    step ((HostMove.offerKey late).apply t) = exec i ((HostMove.offerKey late).apply s)

/-- The frame of every command: the parameter, the pins, the command channel and the record of responses taken stay; a
command still in progress has changed no filter state and given no response; a command takes no key byte but its own. -/
def Obligations.EveryCommandKeepsItsFrame : Prop :=
  ∀ (i : Instr) (s t : State), exec i s = .next t →
    CommandFrame s t ∧ t.chan.keyIn = s.chan.keyIn.drop i.keyBytes ∧
    (t.inProgress = true → t.filter = s.filter ∧ t.chan.rspOut = s.chan.rspOut ∧
      s.chan.keyIn.length < i.keyBytes) ∧
    (t.inProgress = false → ∃ st res a b, Answered s t st res a b ∧ i.keyBytes ≤ s.chan.keyIn.length ∧
      (res = 1#1 → st = .ok ∧ ∃ len, i = .contains len))

/-- Rule R34: the working registers carry nothing from one command to the next. Two states that differ in them, and in
the free values to come, only, show the same outcome of every command. -/
def Obligations.WorkingRegistersCarryNothing : Prop :=
  ∀ (i : Instr) (s s' : State), view s = view s' → SameShown (exec i s) (exec i s')

/-! ### The machine (10_state.md, 20_memory.md, 70_reset_and_hazards.md) -/

/-- A step of an idle core runs the command that the next word of the command channel decodes to, the word taken off the
channel (rules R61, R130). This ties the statements about `exec` to a run. -/
def Obligations.StepRunsTheDecodedCommand : Prop :=
  ∀ (s : State) (w : CmdWord) (rest : List CmdWord), Idle s → s.chan.cmdIn = w :: rest →
    step s = exec (decode w) { s with chan := { s.chan with cmdIn := rest } }

/-- Rules R33 and R171, for every device: after reset there is no filter, `SIZE` is 0, no cell has a value, no command is
in progress and no response pending. -/
def Obligations.ResetStateIsUninitialized : Prop :=
  ∀ c : Config, (State.resetWith c).cfg = c ∧ (State.resetWith c).filter.constructed = false ∧
    (State.resetWith c).filter.size = 0#32 ∧ (∀ i, cellRead i (State.resetWith c) = none) ∧
    Idle (State.resetWith c)

/-- Rules R170 and R172: an edge with `rst = 1`, in any state, gives the reset state, without a response; a response not
yet taken is withdrawn; no channel moves, what the host offers stays, and the three ready and valid outputs are 0. -/
def Obligations.ResetEdgeAbandonsEverything : Prop :=
  ∀ s : State, s.chan.rst = true →
    cmdReady s = false ∧ keyReady s = false ∧ rspValid s = false ∧
    ∃ t, step s = .next t ∧ edge s = .next t ∧ t.cfg = s.cfg ∧ t.filter = (State.resetWith s.cfg).filter ∧
      t.inProgress = false ∧ t.chan = { s.chan with rspOut := [] } ∧ (∀ i, cellRead i t = none)

/-- Rule R61: the core raises `cmd_ready` only when no command is in progress, and `key_ready` only while an ADD or
CONTAINS in progress still has `KEY_IDX < KEY_LEN`; after reset it is ready for a command word. -/
def Obligations.ReadyOutputsFollowTheSequencer : Prop :=
  ∀ s : State, Inv s →
    (cmdReady s = true ↔ Idle s) ∧
    (keyReady s = true ↔ s.chan.rst = false ∧ s.inProgress = true ∧
      (s.seq.cmdOp = opAdd ∨ s.seq.cmdOp = opContains) ∧ s.seq.keyIdx.toNat < s.seq.keyLen.toNat) ∧
    (rspValid s = true ↔ s.chan.rst = false ∧ s.chan.rspOut ≠ [])

/-- Rule R61, one edge at a time: on each channel exactly one word moves when valid and ready are both 1, and none
otherwise. -/
def Obligations.EdgesMoveOneWordPerTransfer : Prop :=
  ∀ s t : State, Inv s → s.chan.rst = false → edge s = .next t →
    t.chan.cmdIn = (if cmdTransfer s then s.chan.cmdIn.tail else s.chan.cmdIn) ∧
    t.chan.keyIn = (if keyTransfer s then s.chan.keyIn.tail else s.chan.keyIn) ∧
    t.chan.rspTaken = (if rspTransfer s then s.chan.rspTaken ++ s.chan.rspOut.take 1 else s.chan.rspTaken)

/-- Rule R176: a response is offered until the host takes it; while `rsp_ready = 0` a step changes nothing. -/
def Obligations.ResponseIsHeldUntilTaken : Prop :=
  ∀ (s : State) (w : RspWord) (rest : List RspWord), s.chan.rst = false → s.chan.rspOut = w :: rest →
    rspWordOut s = some w ∧
    (s.chan.rspReady = false → step s = .next s) ∧
    (s.chan.rspReady = true → ∃ t, step s = .next t ∧ t.chan.rspOut = rest ∧ t.chan.rspTaken = s.chan.rspTaken ++ [w] ∧
      t.filter = s.filter ∧ t.chan.cmdIn = s.chan.cmdIn ∧ t.chan.keyIn = s.chan.keyIn)

/-- Rules R53 (c) and R176: no step drops or reorders a response; it adds at most one, at the end. Only a reset withdraws
one. -/
def Obligations.ResponsesComeInCommandOrder : Prop :=
  ∀ s t : State, s.chan.rst = false → step s = .next t →
    responses t = responses s ∨ ∃ w, responses t = responses s ++ [w]

/-- The invariant holds at reset, for every legal device (rules R5, R24). -/
def Obligations.ResetStateMeetsTheInvariant : Prop := ∀ c : Config, c.Legal → Inv (State.resetWith c)

/-- Rule R24 and the sequencer's bounds: every step keeps the invariant. Two of its clauses are the model's: at most one
response is pending (DESIGN CHOICE, log entry 6; rule R176 leaves it open), and the cells are in canonical form (DEDUCED,
log entry 8). -/
def Obligations.EveryStepKeepsTheInvariant : Prop := ∀ s t : State, Inv s → step s = .next t → Inv t

/-- Every clock edge, of the model's schedule (DESIGN CHOICE, log entry 9), keeps the invariant too. As there, at most one
response pending (DESIGN CHOICE, log entry 6; rule R176 leaves it open) and the canonical form of the cells (DEDUCED, log
entry 8) are the model's. -/
def Obligations.EveryEdgeKeepsTheInvariant : Prop := ∀ s t : State, Inv s → edge s = .next t → Inv t

/-- Each move of the host touches its own part of the channels alone, adds behind what is already offered, reaches nothing
of the core (rules R20, R61, R115), changes no response, and keeps the invariant. (That what is offered and the pins stand
in the state is the model's form, log entry 5, and that the host has these moves alone is log entry 12.) -/
def Obligations.HostMovesTouchOnlyTheirChannel : Prop :=
  ∀ s : State,
    (∀ w, (HostMove.offerCommand w).apply s = { s with chan := { s.chan with cmdIn := s.chan.cmdIn ++ [w] } }) ∧
    (∀ bytes, (HostMove.offerKey bytes).apply s = { s with chan := { s.chan with keyIn := s.chan.keyIn ++ bytes } }) ∧
    (∀ level, (HostMove.driveRst level).apply s = { s with chan := { s.chan with rst := level } }) ∧
    (∀ level, (HostMove.driveRspReady level).apply s = { s with chan := { s.chan with rspReady := level } }) ∧
    ∀ m : HostMove, (Inv s → Inv (m.apply s)) ∧ m.apply s = { s with chan := (m.apply s).chan } ∧
      (m.apply s).chan.rspOut = s.chan.rspOut ∧ (m.apply s).chan.rspTaken = s.chan.rspTaken

/-- Rule R154: no other error exists. In a state that meets the invariant no step and no edge stops. -/
def Obligations.NothingStopsTheMachine : Prop :=
  ∀ s : State, Inv s → (∃ t, step s = .next t) ∧ (∃ t, edge s = .next t)

/-- Rules R25 and R119: a cell that is 1 stays 1 in every step but a CLEAR, a successful CREATE and a reset. -/
def Obligations.CellsOnlyRise : Prop :=
  ∀ (s t : State) (i : Word), Inv s → step s = .next t → cellRead i s = some 1#1 →
    cellRead i t = some 1#1 ∨ nextAction s = .resetEdge ∨
    ∃ w rest, nextAction s = .accept w rest ∧ zeroesCells (decode w) s

/-- Rules R21 and R22: `SIZE` and `CONSTRUCTED` are written only by a successful CREATE and by reset, and no command ever
clears `CONSTRUCTED`. -/
def Obligations.OnlyCreateWritesSizeAndConstructed : Prop :=
  ∀ s t : State, step s = .next t →
    (t.filter.size = s.filter.size ∧ t.filter.constructed = s.filter.constructed) ∨
    nextAction s = .resetEdge ∨
    (∃ size w rest, nextAction s = .accept w rest ∧ decode w = .create size ∧ createSucceeds size s ∧
      t.filter.size = size ∧ t.filter.constructed = true)

/-- Rule R137, no false negatives: after an ADD of a key, whatever ADD, CONTAINS and failing CREATE commands come between,
a CONTAINS of the key answers OK with `RESULT = 1`. -/
def Obligations.NoFalseNegatives : Prop :=
  ∀ (s t u : State) (key : List Byte) (len : Word) (between : List Transaction),
    Inv s → s.inProgress = false → s.chan.keyIn = [] → s.filter.constructed = true → key.length = len.toNat →
    (∀ c ∈ between, c.wellFormed = true ∧ ¬ zeroesCells c.instr s) →
    transact { instr := .add len, key := key } s = .next t →
    transactAll between t = .next u →
    ∃ v, transact { instr := .contains len, key := key } u = .next v ∧
      Answered u v .ok 1#1 (fnvHash key) (murmurHash3 key)

/-- Rule R138, idempotence: a second ADD of the same key leaves the cell array exactly as the first left it. -/
def Obligations.AddIsIdempotent : Prop :=
  ∀ (s t u : State) (key : List Byte) (len : Word), FilterInv s.cfg s.filter → s.chan.keyIn = [] →
    key.length = len.toNat → transact { instr := .add len, key := key } s = .next t →
    transact { instr := .add len, key := key } t = .next u → u.filter = t.filter

/-- Rule R139: after a CLEAR that answers OK every cell is 0, and a CONTAINS of any key answers `RESULT = 0`. -/
def Obligations.ClearedFilterContainsNothing : Prop :=
  ∀ (s t : State) (x : Word) (key : List Byte) (len : Word), FilterInv s.cfg s.filter → s.filter.constructed = true →
    s.chan.keyIn = [] → exec (.clear x) s = .next t → key.length = len.toNat →
    (∀ i : Word, i.toNat < s.filter.size.toNat → cellRead i t = some 0#1) ∧
    ∃ u, transact { instr := .contains len, key := key } t = .next u ∧
      Answered t u .ok 0#1 (fnvHash key) (murmurHash3 key)

/-- Rule R140, false positives, in the case rule R133 names: in a filter of one cell, once any key has been added every
CONTAINS, of whatever key, answers `RESULT = 1`. -/
def Obligations.OneCellFilterContainsEverything : Prop :=
  ∀ (s t : State) (key other : List Byte) (len len' : Word), FilterInv s.cfg s.filter →
    s.filter.constructed = true → s.filter.size = 1#32 → s.chan.keyIn = [] →
    key.length = len.toNat → other.length = len'.toNat →
    transact { instr := .add len, key := key } s = .next t →
    ∃ u, transact { instr := .contains len', key := other } t = .next u ∧
      Answered t u .ok 1#1 (fnvHash other) (murmurHash3 other)

/-- Rule R141: nothing of a key outlives its command except the cells ADD set. After ADDs of two keys with the same three
positions the filter states are the same. -/
def Obligations.KeysOfEqualPositionsAreIndistinguishable : Prop :=
  ∀ (s t u : State) (key other : List Byte) (len len' : Word), FilterInv s.cfg s.filter →
    s.filter.constructed = true → s.chan.keyIn = [] → key.length = len.toNat → other.length = len'.toNat →
    positions key s.filter.size = positions other s.filter.size →
    transact { instr := .add len, key := key } s = .next t →
    transact { instr := .add len', key := other } s = .next u → t.filter = u.filter

/-- Rules R66, R174, R177 and R179: a sequence of whole commands, issued one after the other by a host that takes every
response, runs to its end from every idle state that meets the invariant, with exactly one response for each command, and
leaves the core idle with nothing on the channels. -/
def Obligations.EveryCommandSequenceCompletes : Prop :=
  ∀ (ts : List Transaction) (s : State), Inv s → Idle s → s.chan.rspReady = true → s.chan.cmdIn = [] →
    s.chan.keyIn = [] → (∀ t ∈ ts, t.wellFormed = true) →
    ∃ u answers, runEvents (ts.flatMap Transaction.events) s = .next u ∧ Inv u ∧ Idle u ∧ u.chan.cmdIn = [] ∧
      u.chan.keyIn = [] ∧ u.chan.rspTaken = s.chan.rspTaken ++ answers ∧ answers.length = ts.length

/-- The clocked view refines the atomic one (rules R130, D1): from every state some number of edges leads where one step
leads, or to the same fault. -/
def Obligations.EdgesReachEveryStep : Prop := ∀ s : State, ∃ n, edges n s = step s
end

