-- ==== Sys2Proof/Laws/Arith.lean ====
section
/-! SUPPORT. The arithmetic primitives in Lean's own bit-vector operations. -/

namespace Sys2Proof.Machine

theorem mul32_eq (a b : Word) : mul32 a b = a * b := by
  apply BitVec.eq_of_toNat_eq; simp [mul32, BitVec.toNat_mul, Nat.mul_comm]

theorem add32_eq (a b : Word) : add32 a b = a + b := by
  apply BitVec.eq_of_toNat_eq; simp [add32, BitVec.toNat_add, Nat.add_comm]

theorem shr32_eq (a : Word) (s : Nat) : shr32 a s = a >>> s := by
  apply BitVec.eq_of_toNat_eq
  simp only [shr32, BitVec.toNat_ofNat, BitVec.toNat_ushiftRight, Nat.shiftRight_eq_div_pow]
  exact Nat.mod_eq_of_lt (lt_of_le_of_lt (Nat.div_le_self _ _) a.isLt)

theorem rotl32_eq (a : Word) {r : Nat} (hr : r < 32) : rotl32 a r = a.rotateLeft r := by
  have h1 : BitVec.ofNat 32 (2 ^ r * a.toNat) = a <<< r := by
    apply BitVec.eq_of_toNat_eq
    simp [BitVec.toNat_shiftLeft, Nat.shiftLeft_eq, Nat.mul_comm]
  have h2 : BitVec.ofNat 32 (a.toNat / 2 ^ (32 - r)) = a >>> (32 - r) := shr32_eq a (32 - r)
  rw [rotl32, h1, h2, BitVec.rotateLeft_def, Nat.mod_eq_of_lt hr]

theorem umod32_eq (a : Word) {n : Word} (hn : n ≠ 0#32) : umod32 a n = some (a % n) := by
  simp only [umod32, if_neg hn, Option.some.injEq]
  apply BitVec.eq_of_toNat_eq
  have h : a.toNat - n.toNat * (a.toNat / n.toNat) = a.toNat % n.toNat := by
    have := Nat.mod_add_div a.toNat n.toNat
    omega
  rw [BitVec.toNat_ofNat, h, BitVec.toNat_umod]
  exact Nat.mod_eq_of_lt (lt_of_le_of_lt (Nat.mod_le _ _) a.isLt)

/-- A remainder by 0 has no value. -/
@[simp] theorem umod32_zero (a : Word) : umod32 a 0#32 = none := rfl

theorem toNat_pos_of_ne_zero {n : Word} (hn : n ≠ 0#32) : 0 < n.toNat := by
  rcases Nat.eq_zero_or_pos n.toNat with h | h
  · exact absurd (BitVec.eq_of_toNat_eq (by simpa using h)) hn
  · exact h

/-- A remainder is below its divisor (rule R12). -/
theorem umod_lt (a : Word) {n : Word} (hn : n ≠ 0#32) : a % n < n := by
  rw [BitVec.lt_def, BitVec.toNat_umod]
  exact Nat.mod_lt _ (toNat_pos_of_ne_zero hn)

end Sys2Proof.Machine
end

