-- ==== Sys2Proof/Laws/State.lean ====
section
/-! SUPPORT. One lemma per field per named update of the state: no later proof unfolds an update. -/

namespace Sys2Proof.Machine

/-! ### `State.setFilter` -/

@[simp] theorem State.setFilter_cfg (s : State) (v : Filter) : (s.setFilter v).cfg = s.cfg := by cases s; rfl
@[simp] theorem State.setFilter_filter (s : State) (v : Filter) : (s.setFilter v).filter = v := by cases s; rfl
@[simp] theorem State.setFilter_fnvAcc (s : State) (v : Filter) : (s.setFilter v).fnvAcc = s.fnvAcc := by cases s; rfl
@[simp] theorem State.setFilter_mm (s : State) (v : Filter) : (s.setFilter v).mm = s.mm := by cases s; rfl
@[simp] theorem State.setFilter_seq (s : State) (v : Filter) : (s.setFilter v).seq = s.seq := by cases s; rfl
@[simp] theorem State.setFilter_idx (s : State) (v : Filter) : (s.setFilter v).idx = s.idx := by cases s; rfl
@[simp] theorem State.setFilter_inProgress (s : State) (v : Filter) : (s.setFilter v).inProgress = s.inProgress := by cases s; rfl
@[simp] theorem State.setFilter_chan (s : State) (v : Filter) : (s.setFilter v).chan = s.chan := by cases s; rfl
@[simp] theorem State.setFilter_fresh (s : State) (v : Filter) : (s.setFilter v).fresh = s.fresh := by cases s; rfl

/-! ### `State.setFnvAcc` -/

@[simp] theorem State.setFnvAcc_cfg (s : State) (v : Word) : (s.setFnvAcc v).cfg = s.cfg := by cases s; rfl
@[simp] theorem State.setFnvAcc_filter (s : State) (v : Word) : (s.setFnvAcc v).filter = s.filter := by cases s; rfl
@[simp] theorem State.setFnvAcc_fnvAcc (s : State) (v : Word) : (s.setFnvAcc v).fnvAcc = v := by cases s; rfl
@[simp] theorem State.setFnvAcc_mm (s : State) (v : Word) : (s.setFnvAcc v).mm = s.mm := by cases s; rfl
@[simp] theorem State.setFnvAcc_seq (s : State) (v : Word) : (s.setFnvAcc v).seq = s.seq := by cases s; rfl
@[simp] theorem State.setFnvAcc_idx (s : State) (v : Word) : (s.setFnvAcc v).idx = s.idx := by cases s; rfl
@[simp] theorem State.setFnvAcc_inProgress (s : State) (v : Word) : (s.setFnvAcc v).inProgress = s.inProgress := by cases s; rfl
@[simp] theorem State.setFnvAcc_chan (s : State) (v : Word) : (s.setFnvAcc v).chan = s.chan := by cases s; rfl
@[simp] theorem State.setFnvAcc_fresh (s : State) (v : Word) : (s.setFnvAcc v).fresh = s.fresh := by cases s; rfl

/-! ### `State.setMm` -/

@[simp] theorem State.setMm_cfg (s : State) (v : MurmurRegs) : (s.setMm v).cfg = s.cfg := by cases s; rfl
@[simp] theorem State.setMm_filter (s : State) (v : MurmurRegs) : (s.setMm v).filter = s.filter := by cases s; rfl
@[simp] theorem State.setMm_fnvAcc (s : State) (v : MurmurRegs) : (s.setMm v).fnvAcc = s.fnvAcc := by cases s; rfl
@[simp] theorem State.setMm_mm (s : State) (v : MurmurRegs) : (s.setMm v).mm = v := by cases s; rfl
@[simp] theorem State.setMm_seq (s : State) (v : MurmurRegs) : (s.setMm v).seq = s.seq := by cases s; rfl
@[simp] theorem State.setMm_idx (s : State) (v : MurmurRegs) : (s.setMm v).idx = s.idx := by cases s; rfl
@[simp] theorem State.setMm_inProgress (s : State) (v : MurmurRegs) : (s.setMm v).inProgress = s.inProgress := by cases s; rfl
@[simp] theorem State.setMm_chan (s : State) (v : MurmurRegs) : (s.setMm v).chan = s.chan := by cases s; rfl
@[simp] theorem State.setMm_fresh (s : State) (v : MurmurRegs) : (s.setMm v).fresh = s.fresh := by cases s; rfl

/-! ### `State.setSeq` -/

@[simp] theorem State.setSeq_cfg (s : State) (v : SeqRegs) : (s.setSeq v).cfg = s.cfg := by cases s; rfl
@[simp] theorem State.setSeq_filter (s : State) (v : SeqRegs) : (s.setSeq v).filter = s.filter := by cases s; rfl
@[simp] theorem State.setSeq_fnvAcc (s : State) (v : SeqRegs) : (s.setSeq v).fnvAcc = s.fnvAcc := by cases s; rfl
@[simp] theorem State.setSeq_mm (s : State) (v : SeqRegs) : (s.setSeq v).mm = s.mm := by cases s; rfl
@[simp] theorem State.setSeq_seq (s : State) (v : SeqRegs) : (s.setSeq v).seq = v := by cases s; rfl
@[simp] theorem State.setSeq_idx (s : State) (v : SeqRegs) : (s.setSeq v).idx = s.idx := by cases s; rfl
@[simp] theorem State.setSeq_inProgress (s : State) (v : SeqRegs) : (s.setSeq v).inProgress = s.inProgress := by cases s; rfl
@[simp] theorem State.setSeq_chan (s : State) (v : SeqRegs) : (s.setSeq v).chan = s.chan := by cases s; rfl
@[simp] theorem State.setSeq_fresh (s : State) (v : SeqRegs) : (s.setSeq v).fresh = s.fresh := by cases s; rfl

/-! ### `State.setIdx` -/

@[simp] theorem State.setIdx_cfg (s : State) (v : IndexerRegs) : (s.setIdx v).cfg = s.cfg := by cases s; rfl
@[simp] theorem State.setIdx_filter (s : State) (v : IndexerRegs) : (s.setIdx v).filter = s.filter := by cases s; rfl
@[simp] theorem State.setIdx_fnvAcc (s : State) (v : IndexerRegs) : (s.setIdx v).fnvAcc = s.fnvAcc := by cases s; rfl
@[simp] theorem State.setIdx_mm (s : State) (v : IndexerRegs) : (s.setIdx v).mm = s.mm := by cases s; rfl
@[simp] theorem State.setIdx_seq (s : State) (v : IndexerRegs) : (s.setIdx v).seq = s.seq := by cases s; rfl
@[simp] theorem State.setIdx_idx (s : State) (v : IndexerRegs) : (s.setIdx v).idx = v := by cases s; rfl
@[simp] theorem State.setIdx_inProgress (s : State) (v : IndexerRegs) : (s.setIdx v).inProgress = s.inProgress := by cases s; rfl
@[simp] theorem State.setIdx_chan (s : State) (v : IndexerRegs) : (s.setIdx v).chan = s.chan := by cases s; rfl
@[simp] theorem State.setIdx_fresh (s : State) (v : IndexerRegs) : (s.setIdx v).fresh = s.fresh := by cases s; rfl

/-! ### `State.setInProgress` -/

@[simp] theorem State.setInProgress_cfg (s : State) (v : Bool) : (s.setInProgress v).cfg = s.cfg := by cases s; rfl
@[simp] theorem State.setInProgress_filter (s : State) (v : Bool) : (s.setInProgress v).filter = s.filter := by cases s; rfl
@[simp] theorem State.setInProgress_fnvAcc (s : State) (v : Bool) : (s.setInProgress v).fnvAcc = s.fnvAcc := by cases s; rfl
@[simp] theorem State.setInProgress_mm (s : State) (v : Bool) : (s.setInProgress v).mm = s.mm := by cases s; rfl
@[simp] theorem State.setInProgress_seq (s : State) (v : Bool) : (s.setInProgress v).seq = s.seq := by cases s; rfl
@[simp] theorem State.setInProgress_idx (s : State) (v : Bool) : (s.setInProgress v).idx = s.idx := by cases s; rfl
@[simp] theorem State.setInProgress_inProgress (s : State) (v : Bool) : (s.setInProgress v).inProgress = v := by cases s; rfl
@[simp] theorem State.setInProgress_chan (s : State) (v : Bool) : (s.setInProgress v).chan = s.chan := by cases s; rfl
@[simp] theorem State.setInProgress_fresh (s : State) (v : Bool) : (s.setInProgress v).fresh = s.fresh := by cases s; rfl

/-! ### `State.setChan` -/

@[simp] theorem State.setChan_cfg (s : State) (v : Channels) : (s.setChan v).cfg = s.cfg := by cases s; rfl
@[simp] theorem State.setChan_filter (s : State) (v : Channels) : (s.setChan v).filter = s.filter := by cases s; rfl
@[simp] theorem State.setChan_fnvAcc (s : State) (v : Channels) : (s.setChan v).fnvAcc = s.fnvAcc := by cases s; rfl
@[simp] theorem State.setChan_mm (s : State) (v : Channels) : (s.setChan v).mm = s.mm := by cases s; rfl
@[simp] theorem State.setChan_seq (s : State) (v : Channels) : (s.setChan v).seq = s.seq := by cases s; rfl
@[simp] theorem State.setChan_idx (s : State) (v : Channels) : (s.setChan v).idx = s.idx := by cases s; rfl
@[simp] theorem State.setChan_inProgress (s : State) (v : Channels) : (s.setChan v).inProgress = s.inProgress := by cases s; rfl
@[simp] theorem State.setChan_chan (s : State) (v : Channels) : (s.setChan v).chan = v := by cases s; rfl
@[simp] theorem State.setChan_fresh (s : State) (v : Channels) : (s.setChan v).fresh = s.fresh := by cases s; rfl

/-! ### `State.setFresh` -/

@[simp] theorem State.setFresh_cfg (s : State) (v : Nat) : (s.setFresh v).cfg = s.cfg := by cases s; rfl
@[simp] theorem State.setFresh_filter (s : State) (v : Nat) : (s.setFresh v).filter = s.filter := by cases s; rfl
@[simp] theorem State.setFresh_fnvAcc (s : State) (v : Nat) : (s.setFresh v).fnvAcc = s.fnvAcc := by cases s; rfl
@[simp] theorem State.setFresh_mm (s : State) (v : Nat) : (s.setFresh v).mm = s.mm := by cases s; rfl
@[simp] theorem State.setFresh_seq (s : State) (v : Nat) : (s.setFresh v).seq = s.seq := by cases s; rfl
@[simp] theorem State.setFresh_idx (s : State) (v : Nat) : (s.setFresh v).idx = s.idx := by cases s; rfl
@[simp] theorem State.setFresh_inProgress (s : State) (v : Nat) : (s.setFresh v).inProgress = s.inProgress := by cases s; rfl
@[simp] theorem State.setFresh_chan (s : State) (v : Nat) : (s.setFresh v).chan = s.chan := by cases s; rfl
@[simp] theorem State.setFresh_fresh (s : State) (v : Nat) : (s.setFresh v).fresh = v := by cases s; rfl

/-! ### `fnvInit` -/

@[simp] theorem fnvInit_cfg (s : State) : (fnvInit s).cfg = s.cfg := by simp [fnvInit]
@[simp] theorem fnvInit_filter (s : State) : (fnvInit s).filter = s.filter := by simp [fnvInit]
@[simp] theorem fnvInit_fnvAcc (s : State) : (fnvInit s).fnvAcc = fnvOffsetBasis := by simp [fnvInit]
@[simp] theorem fnvInit_mm (s : State) : (fnvInit s).mm = s.mm := by simp [fnvInit]
@[simp] theorem fnvInit_seq (s : State) : (fnvInit s).seq = s.seq := by simp [fnvInit]
@[simp] theorem fnvInit_idx (s : State) : (fnvInit s).idx = s.idx := by simp [fnvInit]
@[simp] theorem fnvInit_inProgress (s : State) : (fnvInit s).inProgress = s.inProgress := by simp [fnvInit]
@[simp] theorem fnvInit_chan (s : State) : (fnvInit s).chan = s.chan := by simp [fnvInit]
@[simp] theorem fnvInit_fresh (s : State) : (fnvInit s).fresh = s.fresh := by simp [fnvInit]

/-! ### `fnvAbsorb` -/

@[simp] theorem fnvAbsorb_cfg (sym : Word) (s : State) : (fnvAbsorb sym s).cfg = s.cfg := by simp [fnvAbsorb]
@[simp] theorem fnvAbsorb_filter (sym : Word) (s : State) : (fnvAbsorb sym s).filter = s.filter := by simp [fnvAbsorb]
@[simp] theorem fnvAbsorb_fnvAcc (sym : Word) (s : State) : (fnvAbsorb sym s).fnvAcc = fnvStep s.fnvAcc sym := by
  simp [fnvAbsorb]
@[simp] theorem fnvAbsorb_mm (sym : Word) (s : State) : (fnvAbsorb sym s).mm = s.mm := by simp [fnvAbsorb]
@[simp] theorem fnvAbsorb_seq (sym : Word) (s : State) : (fnvAbsorb sym s).seq = s.seq := by simp [fnvAbsorb]
@[simp] theorem fnvAbsorb_idx (sym : Word) (s : State) : (fnvAbsorb sym s).idx = s.idx := by simp [fnvAbsorb]
@[simp] theorem fnvAbsorb_inProgress (sym : Word) (s : State) : (fnvAbsorb sym s).inProgress = s.inProgress := by
  simp [fnvAbsorb]
@[simp] theorem fnvAbsorb_chan (sym : Word) (s : State) : (fnvAbsorb sym s).chan = s.chan := by simp [fnvAbsorb]
@[simp] theorem fnvAbsorb_fresh (sym : Word) (s : State) : (fnvAbsorb sym s).fresh = s.fresh := by simp [fnvAbsorb]

/-! ### `mmInit` -/

@[simp] theorem mmInit_cfg (s : State) : (mmInit s).cfg = s.cfg := by simp [mmInit]
@[simp] theorem mmInit_filter (s : State) : (mmInit s).filter = s.filter := by simp [mmInit]
@[simp] theorem mmInit_fnvAcc (s : State) : (mmInit s).fnvAcc = s.fnvAcc := by simp [mmInit]
@[simp] theorem mmInit_mm (s : State) : (mmInit s).mm = { hash := mmSeed, k := 0#32, cnt := 0#3 } := by simp [mmInit]
@[simp] theorem mmInit_seq (s : State) : (mmInit s).seq = s.seq := by simp [mmInit]
@[simp] theorem mmInit_idx (s : State) : (mmInit s).idx = s.idx := by simp [mmInit]
@[simp] theorem mmInit_inProgress (s : State) : (mmInit s).inProgress = s.inProgress := by simp [mmInit]
@[simp] theorem mmInit_chan (s : State) : (mmInit s).chan = s.chan := by simp [mmInit]
@[simp] theorem mmInit_fresh (s : State) : (mmInit s).fresh = s.fresh := by simp [mmInit]

/-! ### `mmPack` -/

@[simp] theorem mmPack_cfg (b : Byte) (s : State) : (mmPack b s).cfg = s.cfg := by simp [mmPack]
@[simp] theorem mmPack_filter (b : Byte) (s : State) : (mmPack b s).filter = s.filter := by simp [mmPack]
@[simp] theorem mmPack_fnvAcc (b : Byte) (s : State) : (mmPack b s).fnvAcc = s.fnvAcc := by simp [mmPack]
@[simp] theorem mmPack_mm (b : Byte) (s : State) : (mmPack b s).mm = { s.mm with k := s.mm.k ||| byteInLane b s.mm.cnt.toNat, cnt := s.mm.cnt + 1#3 } := by
  simp [mmPack]
@[simp] theorem mmPack_seq (b : Byte) (s : State) : (mmPack b s).seq = s.seq := by simp [mmPack]
@[simp] theorem mmPack_idx (b : Byte) (s : State) : (mmPack b s).idx = s.idx := by simp [mmPack]
@[simp] theorem mmPack_inProgress (b : Byte) (s : State) : (mmPack b s).inProgress = s.inProgress := by simp [mmPack]
@[simp] theorem mmPack_chan (b : Byte) (s : State) : (mmPack b s).chan = s.chan := by simp [mmPack]
@[simp] theorem mmPack_fresh (b : Byte) (s : State) : (mmPack b s).fresh = s.fresh := by simp [mmPack]

/-! ### `mmChunk` -/

@[simp] theorem mmChunk_cfg (s : State) : (mmChunk s).cfg = s.cfg := by simp [mmChunk]
@[simp] theorem mmChunk_filter (s : State) : (mmChunk s).filter = s.filter := by simp [mmChunk]
@[simp] theorem mmChunk_fnvAcc (s : State) : (mmChunk s).fnvAcc = s.fnvAcc := by simp [mmChunk]
@[simp] theorem mmChunk_mm (s : State) : (mmChunk s).mm = { hash := mmMix s.mm.hash s.mm.k, k := 0#32, cnt := 0#3 } := by
  simp [mmChunk]
@[simp] theorem mmChunk_seq (s : State) : (mmChunk s).seq = s.seq := by simp [mmChunk]
@[simp] theorem mmChunk_idx (s : State) : (mmChunk s).idx = s.idx := by simp [mmChunk]
@[simp] theorem mmChunk_inProgress (s : State) : (mmChunk s).inProgress = s.inProgress := by simp [mmChunk]
@[simp] theorem mmChunk_chan (s : State) : (mmChunk s).chan = s.chan := by simp [mmChunk]
@[simp] theorem mmChunk_fresh (s : State) : (mmChunk s).fresh = s.fresh := by simp [mmChunk]

/-! ### `mmFinal` -/

@[simp] theorem mmFinal_cfg (len : Word) (s : State) : (mmFinal len s).cfg = s.cfg := by simp [mmFinal]
@[simp] theorem mmFinal_filter (len : Word) (s : State) : (mmFinal len s).filter = s.filter := by simp [mmFinal]
@[simp] theorem mmFinal_fnvAcc (len : Word) (s : State) : (mmFinal len s).fnvAcc = s.fnvAcc := by simp [mmFinal]
@[simp] theorem mmFinal_mm (len : Word) (s : State) : (mmFinal len s).mm = { s.mm with hash := mmFmix s.mm.hash len } := by
  simp [mmFinal]
@[simp] theorem mmFinal_seq (len : Word) (s : State) : (mmFinal len s).seq = s.seq := by simp [mmFinal]
@[simp] theorem mmFinal_idx (len : Word) (s : State) : (mmFinal len s).idx = s.idx := by simp [mmFinal]
@[simp] theorem mmFinal_inProgress (len : Word) (s : State) : (mmFinal len s).inProgress = s.inProgress := by
  simp [mmFinal]
@[simp] theorem mmFinal_chan (len : Word) (s : State) : (mmFinal len s).chan = s.chan := by simp [mmFinal]
@[simp] theorem mmFinal_fresh (len : Word) (s : State) : (mmFinal len s).fresh = s.fresh := by simp [mmFinal]

/-! ### `latchOp` -/

@[simp] theorem latchOp_cfg (op : BitVec 2) (s : State) : (latchOp op s).cfg = s.cfg := by simp [latchOp]
@[simp] theorem latchOp_filter (op : BitVec 2) (s : State) : (latchOp op s).filter = s.filter := by simp [latchOp]
@[simp] theorem latchOp_fnvAcc (op : BitVec 2) (s : State) : (latchOp op s).fnvAcc = s.fnvAcc := by simp [latchOp]
@[simp] theorem latchOp_mm (op : BitVec 2) (s : State) : (latchOp op s).mm = s.mm := by simp [latchOp]
@[simp] theorem latchOp_seq (op : BitVec 2) (s : State) : (latchOp op s).seq = { s.seq with cmdOp := op } := by
  simp [latchOp]
@[simp] theorem latchOp_idx (op : BitVec 2) (s : State) : (latchOp op s).idx = s.idx := by simp [latchOp]
@[simp] theorem latchOp_inProgress (op : BitVec 2) (s : State) : (latchOp op s).inProgress = s.inProgress := by
  simp [latchOp]
@[simp] theorem latchOp_chan (op : BitVec 2) (s : State) : (latchOp op s).chan = s.chan := by simp [latchOp]
@[simp] theorem latchOp_fresh (op : BitVec 2) (s : State) : (latchOp op s).fresh = s.fresh := by simp [latchOp]

/-! ### `startKey` -/

@[simp] theorem startKey_cfg (op : BitVec 2) (len : Word) (s : State) : (startKey op len s).cfg = s.cfg := by
  simp [startKey]
@[simp] theorem startKey_filter (op : BitVec 2) (len : Word) (s : State) : (startKey op len s).filter = s.filter := by
  simp [startKey]
@[simp] theorem startKey_fnvAcc (op : BitVec 2) (len : Word) (s : State) : (startKey op len s).fnvAcc = fnvOffsetBasis := by
  simp [startKey]
@[simp] theorem startKey_mm (op : BitVec 2) (len : Word) (s : State) : (startKey op len s).mm = { hash := mmSeed, k := 0#32, cnt := 0#3 } := by
  simp [startKey]
@[simp] theorem startKey_seq (op : BitVec 2) (len : Word) (s : State) : (startKey op len s).seq = { cmdOp := op, keyLen := len, keyIdx := 0#32 } := by
  simp [startKey]
@[simp] theorem startKey_idx (op : BitVec 2) (len : Word) (s : State) : (startKey op len s).idx = s.idx := by
  simp [startKey]
@[simp] theorem startKey_inProgress (op : BitVec 2) (len : Word) (s : State) : (startKey op len s).inProgress = true := by
  simp [startKey]
@[simp] theorem startKey_chan (op : BitVec 2) (len : Word) (s : State) : (startKey op len s).chan = s.chan := by
  simp [startKey]
@[simp] theorem startKey_fresh (op : BitVec 2) (len : Word) (s : State) : (startKey op len s).fresh = s.fresh := by
  simp [startKey]

/-! ### `forgetWork` -/

@[simp] theorem forgetWork_cfg (s : State) : (forgetWork s).cfg = s.cfg := by simp [forgetWork]
@[simp] theorem forgetWork_filter (s : State) : (forgetWork s).filter = s.filter := by simp [forgetWork]
@[simp] theorem forgetWork_inProgress (s : State) : (forgetWork s).inProgress = s.inProgress := by simp [forgetWork]
@[simp] theorem forgetWork_chan (s : State) : (forgetWork s).chan = s.chan := by simp [forgetWork]
@[simp] theorem forgetWork_fresh (s : State) : (forgetWork s).fresh = s.fresh + 11 := by simp [forgetWork]

/-! ### `respond` -/

@[simp] theorem respond_cfg (st : Status) (res : Bit) (a : Word) (c : Word) (s : State) : (respond st res a c s).cfg = s.cfg := by
  simp [respond]
@[simp] theorem respond_filter (st : Status) (res : Bit) (a : Word) (c : Word) (s : State) : (respond st res a c s).filter = s.filter := by
  simp [respond]
@[simp] theorem respond_inProgress (st : Status) (res : Bit) (a : Word) (c : Word) (s : State) : (respond st res a c s).inProgress = false := by
  simp [respond]
@[simp] theorem respond_chan (st : Status) (res : Bit) (a : Word) (c : Word) (s : State) : (respond st res a c s).chan = { s.chan with rspOut := s.chan.rspOut ++ [rspWord st res a c] } := by
  simp [respond]
@[simp] theorem respond_fresh (st : Status) (res : Bit) (a : Word) (c : Word) (s : State) : (respond st res a c s).fresh = s.fresh + 11 := by
  simp [respond]

/-! ### `answerError` -/

@[simp] theorem answerError_cfg (e : ErrorKind) (a : Word) (c : Word) (s : State) : (answerError e a c s).cfg = s.cfg := by
  simp [answerError]
@[simp] theorem answerError_filter (e : ErrorKind) (a : Word) (c : Word) (s : State) : (answerError e a c s).filter = s.filter := by
  simp [answerError]
@[simp] theorem answerError_inProgress (e : ErrorKind) (a : Word) (c : Word) (s : State) : (answerError e a c s).inProgress = false := by
  simp [answerError]
@[simp] theorem answerError_chan (e : ErrorKind) (a : Word) (c : Word) (s : State) : (answerError e a c s).chan = { s.chan with rspOut := s.chan.rspOut ++ [rspWord e.status 0#1 a c] } := by
  simp [answerError]
@[simp] theorem answerError_fresh (e : ErrorKind) (a : Word) (c : Word) (s : State) : (answerError e a c s).fresh = s.fresh + 11 := by
  simp [answerError]

/-! ### `cellZero` -/

@[simp] theorem cellZero_cfg (i : Word) (s : State) : (cellZero i s).cfg = s.cfg := by simp [cellZero]
@[simp] theorem cellZero_filter (i : Word) (s : State) : (cellZero i s).filter = { s.filter with cells := Memory.write s.filter.cells i.toNat 0#1 } := by
  simp [cellZero]
@[simp] theorem cellZero_fnvAcc (i : Word) (s : State) : (cellZero i s).fnvAcc = s.fnvAcc := by simp [cellZero]
@[simp] theorem cellZero_mm (i : Word) (s : State) : (cellZero i s).mm = s.mm := by simp [cellZero]
@[simp] theorem cellZero_seq (i : Word) (s : State) : (cellZero i s).seq = s.seq := by simp [cellZero]
@[simp] theorem cellZero_idx (i : Word) (s : State) : (cellZero i s).idx = s.idx := by simp [cellZero]
@[simp] theorem cellZero_inProgress (i : Word) (s : State) : (cellZero i s).inProgress = s.inProgress := by
  simp [cellZero]
@[simp] theorem cellZero_chan (i : Word) (s : State) : (cellZero i s).chan = s.chan := by simp [cellZero]
@[simp] theorem cellZero_fresh (i : Word) (s : State) : (cellZero i s).fresh = s.fresh := by simp [cellZero]

/-! ### `baClearAll` -/

@[simp] theorem baClearAll_cfg (n : Word) (s : State) : (baClearAll n s).cfg = s.cfg := by simp [baClearAll]
@[simp] theorem baClearAll_filter (n : Word) (s : State) : (baClearAll n s).filter = { s.filter with cells := Memory.crop (Memory.zeroBelow s.filter.cells n.toNat) n.toNat } := by
  simp [baClearAll]
@[simp] theorem baClearAll_fnvAcc (n : Word) (s : State) : (baClearAll n s).fnvAcc = s.fnvAcc := by simp [baClearAll]
@[simp] theorem baClearAll_mm (n : Word) (s : State) : (baClearAll n s).mm = s.mm := by simp [baClearAll]
@[simp] theorem baClearAll_seq (n : Word) (s : State) : (baClearAll n s).seq = s.seq := by simp [baClearAll]
@[simp] theorem baClearAll_idx (n : Word) (s : State) : (baClearAll n s).idx = s.idx := by simp [baClearAll]
@[simp] theorem baClearAll_inProgress (n : Word) (s : State) : (baClearAll n s).inProgress = s.inProgress := by
  simp [baClearAll]
@[simp] theorem baClearAll_chan (n : Word) (s : State) : (baClearAll n s).chan = s.chan := by simp [baClearAll]
@[simp] theorem baClearAll_fresh (n : Word) (s : State) : (baClearAll n s).fresh = s.fresh := by simp [baClearAll]

/-! ### `handOver` -/

@[simp] theorem handOver_cfg (w : RspWord) (rest : List RspWord) (s : State) : (handOver w rest s).cfg = s.cfg := by
  simp [handOver]
@[simp] theorem handOver_filter (w : RspWord) (rest : List RspWord) (s : State) : (handOver w rest s).filter = s.filter := by
  simp [handOver]
@[simp] theorem handOver_fnvAcc (w : RspWord) (rest : List RspWord) (s : State) : (handOver w rest s).fnvAcc = s.fnvAcc := by
  simp [handOver]
@[simp] theorem handOver_mm (w : RspWord) (rest : List RspWord) (s : State) : (handOver w rest s).mm = s.mm := by
  simp [handOver]
@[simp] theorem handOver_seq (w : RspWord) (rest : List RspWord) (s : State) : (handOver w rest s).seq = s.seq := by
  simp [handOver]
@[simp] theorem handOver_idx (w : RspWord) (rest : List RspWord) (s : State) : (handOver w rest s).idx = s.idx := by
  simp [handOver]
@[simp] theorem handOver_inProgress (w : RspWord) (rest : List RspWord) (s : State) : (handOver w rest s).inProgress = s.inProgress := by
  simp [handOver]
@[simp] theorem handOver_chan (w : RspWord) (rest : List RspWord) (s : State) : (handOver w rest s).chan = { s.chan with rspOut := rest, rspTaken := s.chan.rspTaken ++ [w] } := by
  simp [handOver]
@[simp] theorem handOver_fresh (w : RspWord) (rest : List RspWord) (s : State) : (handOver w rest s).fresh = s.fresh := by
  simp [handOver]

/-! ### `popCommand` -/

@[simp] theorem popCommand_cfg (rest : List CmdWord) (s : State) : (popCommand rest s).cfg = s.cfg := by
  simp [popCommand]
@[simp] theorem popCommand_filter (rest : List CmdWord) (s : State) : (popCommand rest s).filter = s.filter := by
  simp [popCommand]
@[simp] theorem popCommand_fnvAcc (rest : List CmdWord) (s : State) : (popCommand rest s).fnvAcc = s.fnvAcc := by
  simp [popCommand]
@[simp] theorem popCommand_mm (rest : List CmdWord) (s : State) : (popCommand rest s).mm = s.mm := by
  simp [popCommand]
@[simp] theorem popCommand_seq (rest : List CmdWord) (s : State) : (popCommand rest s).seq = s.seq := by
  simp [popCommand]
@[simp] theorem popCommand_idx (rest : List CmdWord) (s : State) : (popCommand rest s).idx = s.idx := by
  simp [popCommand]
@[simp] theorem popCommand_inProgress (rest : List CmdWord) (s : State) : (popCommand rest s).inProgress = s.inProgress := by
  simp [popCommand]
@[simp] theorem popCommand_chan (rest : List CmdWord) (s : State) : (popCommand rest s).chan = { s.chan with cmdIn := rest } := by
  simp [popCommand]
@[simp] theorem popCommand_fresh (rest : List CmdWord) (s : State) : (popCommand rest s).fresh = s.fresh := by
  simp [popCommand]

/-! ### `applyReset` -/

@[simp] theorem applyReset_cfg (s : State) : (applyReset s).cfg = s.cfg := by
  simp [applyReset, State.resetWith]
@[simp] theorem applyReset_filter (s : State) : (applyReset s).filter = { size := 0#32, constructed := false, cells := [] } := by
  simp [applyReset, State.resetWith]
@[simp] theorem applyReset_mm (s : State) : (applyReset s).mm = { hash := 0#32, k := 0#32, cnt := 0#3 } := by
  simp [applyReset, State.resetWith]
@[simp] theorem applyReset_inProgress (s : State) : (applyReset s).inProgress = false := by
  simp [applyReset, State.resetWith]
@[simp] theorem applyReset_chan (s : State) : (applyReset s).chan = { s.chan with rspOut := [] } := by
  simp [applyReset, State.resetWith]
@[simp] theorem applyReset_fresh (s : State) : (applyReset s).fresh = s.fresh := by
  simp [applyReset, State.resetWith]

/-! ### `endKey` and `takeByte` -/

@[simp] theorem endKey_cfg (s : State) : (endKey s).cfg = s.cfg := by unfold endKey; split <;> simp
@[simp] theorem endKey_filter (s : State) : (endKey s).filter = s.filter := by unfold endKey; split <;> simp
@[simp] theorem endKey_fnvAcc (s : State) : (endKey s).fnvAcc = s.fnvAcc := by unfold endKey; split <;> simp
@[simp] theorem endKey_seq (s : State) : (endKey s).seq = s.seq := by unfold endKey; split <;> simp
@[simp] theorem endKey_idx (s : State) : (endKey s).idx = s.idx := by unfold endKey; split <;> simp
@[simp] theorem endKey_inProgress (s : State) : (endKey s).inProgress = s.inProgress := by unfold endKey; split <;> simp
@[simp] theorem endKey_chan (s : State) : (endKey s).chan = s.chan := by unfold endKey; split <;> simp
@[simp] theorem endKey_fresh (s : State) : (endKey s).fresh = s.fresh := by unfold endKey; split <;> simp

@[simp] theorem takeByte_cfg (b : Byte) (s : State) : (takeByte b s).cfg = s.cfg := by
  simp only [takeByte]; split <;> simp
@[simp] theorem takeByte_filter (b : Byte) (s : State) : (takeByte b s).filter = s.filter := by
  simp only [takeByte]; split <;> simp
@[simp] theorem takeByte_fnvAcc (b : Byte) (s : State) : (takeByte b s).fnvAcc = fnvStep s.fnvAcc (zext32 b) := by
  simp only [takeByte]; split <;> simp
@[simp] theorem takeByte_seq (b : Byte) (s : State) : (takeByte b s).seq = { s.seq with keyIdx := s.seq.keyIdx + 1#32 } := by
  simp only [takeByte]; split <;> simp
@[simp] theorem takeByte_idx (b : Byte) (s : State) : (takeByte b s).idx = s.idx := by
  simp only [takeByte]; split <;> simp
@[simp] theorem takeByte_inProgress (b : Byte) (s : State) : (takeByte b s).inProgress = s.inProgress := by
  simp only [takeByte]; split <;> simp
@[simp] theorem takeByte_chan (b : Byte) (s : State) : (takeByte b s).chan = s.chan := by
  simp only [takeByte]; split <;> simp
@[simp] theorem takeByte_fresh (b : Byte) (s : State) : (takeByte b s).fresh = s.fresh := by
  simp only [takeByte]; split <;> simp

end Sys2Proof.Machine
end

