-- ==== Sys2Proof/Laws/Hash.lean ====
section
/-! SUPPORT. The hash functions byte by byte: the units' registers after one more key byte. -/

namespace Sys2Proof.Machine

theorem fnvHash_nil : fnvHash [] = fnvOffsetBasis := rfl

/-- One more byte is one more FNV step (rules R82, R84). -/
theorem fnvHash_snoc (key : List Byte) (b : Byte) : fnvHash (key ++ [b]) = fnvStep (fnvHash key) (zext32 b) := by
  simp [fnvHash, fnvSyms, List.foldl_append]

/-- What MM_PACK, and MM_CHUNK of a full chunk, make of the registers (rules R92, R94, R95). -/
def packRegs (r : MurmurRegs) (b : Byte) : MurmurRegs :=
  let r : MurmurRegs := { r with k := r.k ||| byteInLane b r.cnt.toNat, cnt := r.cnt + 1#3 }
  if r.cnt = 4#3 then { hash := mmMix r.hash r.k, k := 0#32, cnt := 0#3 } else r

/-- `takeByte` in the Murmur registers. -/
theorem takeByte_mm (b : Byte) (s : State) : (takeByte b s).mm = packRegs s.mm b := by
  simp only [takeByte, packRegs]
  split <;> split <;> simp_all

/-- The registers of a key from the running hash `h`, four bytes at a time. -/
def regsFrom (h : Word) : List Byte → MurmurRegs
  | [] => { hash := h, k := 0#32, cnt := 0#3 }
  | [b0] => { hash := h, k := byteInLane b0 0, cnt := 1#3 }
  | [b0, b1] => { hash := h, k := byteInLane b0 0 ||| byteInLane b1 1, cnt := 2#3 }
  | [b0, b1, b2] => { hash := h, k := byteInLane b0 0 ||| byteInLane b1 1 ||| byteInLane b2 2, cnt := 3#3 }
  | b0 :: b1 :: b2 :: b3 :: rest =>
    regsFrom (mmMix h (byteInLane b0 0 ||| byteInLane b1 1 ||| byteInLane b2 2 ||| byteInLane b3 3)) rest

theorem regsFrom_snoc (h : Word) (key : List Byte) (b : Byte) :
    regsFrom h (key ++ [b]) = packRegs (regsFrom h key) b := by
  induction h, key using regsFrom.induct with
  | case1 h => simp [regsFrom, packRegs]
  | case2 h b0 => simp [regsFrom, packRegs]
  | case3 h b0 b1 => simp [regsFrom, packRegs]
  | case4 h b0 b1 b2 => simp [regsFrom, packRegs]
  | case5 h b0 b1 b2 b3 rest ih => simpa [regsFrom] using ih

theorem regsFrom_eq (h : Word) (key : List Byte) :
    regsFrom h key =
      { hash := (chunkWords (key.take (4 * (key.length / 4)))).foldl mmMix h
        k := (chunkWords (key.drop (4 * (key.length / 4)))).headD 0#32
        cnt := BitVec.ofNat 3 (key.length % 4) } := by
  induction h, key using regsFrom.induct with
  | case1 h => simp [regsFrom, chunkWords]
  | case2 h b0 => simp [regsFrom, chunkWords]
  | case3 h b0 b1 => simp [regsFrom, chunkWords]
  | case4 h b0 b1 b2 => simp [regsFrom, chunkWords]
  | case5 h b0 b1 b2 b3 rest ih =>
    have h1 : (b0 :: b1 :: b2 :: b3 :: rest).length / 4 = rest.length / 4 + 1 := by simp; omega
    have h2 : (b0 :: b1 :: b2 :: b3 :: rest).length % 4 = rest.length % 4 := by simp; omega
    rw [h1, h2, Nat.mul_add, regsFrom, ih]
    simp [chunkWords, List.take_succ_cons]

/-- The registers after one more byte (rules R92, R94, R95). -/
theorem murmurRegs_snoc (key : List Byte) (b : Byte) :
    murmurRegs (key ++ [b]) = packRegs (murmurRegs key) b := by
  have h : ∀ key, murmurRegs key = regsFrom mmSeed key := fun key => (regsFrom_eq mmSeed key).symm
  rw [h, h, regsFrom_snoc]

theorem murmurRegs_nil : murmurRegs [] = { hash := mmSeed, k := 0#32, cnt := 0#3 } := rfl

theorem regsFrom_fold (h : Word) (key : List Byte) :
    (chunkWords key).foldl mmMix h =
      if (regsFrom h key).cnt = 0#3 then (regsFrom h key).hash
      else mmMix (regsFrom h key).hash (regsFrom h key).k := by
  induction h, key using regsFrom.induct with
  | case1 h => simp [regsFrom, chunkWords]
  | case2 h b0 => simp [regsFrom, chunkWords]
  | case3 h b0 b1 => simp [regsFrom, chunkWords]
  | case4 h b0 b1 b2 => simp [regsFrom, chunkWords]
  | case5 h b0 b1 b2 b3 rest ih =>
    rw [chunkWords, List.foldl_cons, regsFrom]
    exact ih

/-- The end of a key: the partial chunk if there is one, then the finalisation (rules R95 to R97). -/
theorem murmurHash3_eq (key : List Byte) :
    murmurHash3 key =
      mmFmix (if (murmurRegs key).cnt = 0#3 then (murmurRegs key).hash
        else mmMix (murmurRegs key).hash (murmurRegs key).k) (trunc32 key.length) := by
  have h : murmurRegs key = regsFrom mmSeed key := (regsFrom_eq mmSeed key).symm
  rw [murmurHash3, h, regsFrom_fold]

theorem murmurRegs_cnt (key : List Byte) : (murmurRegs key).cnt.toNat = key.length % 4 := by
  simp [murmurRegs]; omega

end Sys2Proof.Machine
end

