-- ==== Sys2Proof/Laws/KeyPhase.lean ====
section
/-! SUPPORT. The key phase: what the loop takes, what it leaves, and what the two hash units then hold. -/

namespace Sys2Proof.Machine

/-! ### What the loop leaves alone -/

@[simp] theorem keyLoop_cfg (ks : List Byte) (s : State) : (keyLoop ks s).cfg = s.cfg := by
  induction ks generalizing s with
  | nil => simp [keyLoop]
  | cons b bs ih => simp only [keyLoop]; split <;> simp [ih]

@[simp] theorem keyLoop_filter (ks : List Byte) (s : State) : (keyLoop ks s).filter = s.filter := by
  induction ks generalizing s with
  | nil => simp [keyLoop]
  | cons b bs ih => simp only [keyLoop]; split <;> simp [ih]

@[simp] theorem keyLoop_idx (ks : List Byte) (s : State) : (keyLoop ks s).idx = s.idx := by
  induction ks generalizing s with
  | nil => simp [keyLoop]
  | cons b bs ih => simp only [keyLoop]; split <;> simp [ih]

@[simp] theorem keyLoop_inProgress (ks : List Byte) (s : State) : (keyLoop ks s).inProgress = s.inProgress := by
  induction ks generalizing s with
  | nil => simp [keyLoop]
  | cons b bs ih => simp only [keyLoop]; split <;> simp [ih]

@[simp] theorem keyLoop_fresh (ks : List Byte) (s : State) : (keyLoop ks s).fresh = s.fresh := by
  induction ks generalizing s with
  | nil => simp [keyLoop]
  | cons b bs ih => simp only [keyLoop]; split <;> simp [ih]

@[simp] theorem keyLoop_cmdOp (ks : List Byte) (s : State) : (keyLoop ks s).seq.cmdOp = s.seq.cmdOp := by
  induction ks generalizing s with
  | nil => simp [keyLoop]
  | cons b bs ih => simp only [keyLoop]; split <;> simp [ih]

@[simp] theorem keyLoop_keyLen (ks : List Byte) (s : State) : (keyLoop ks s).seq.keyLen = s.seq.keyLen := by
  induction ks generalizing s with
  | nil => simp [keyLoop]
  | cons b bs ih => simp only [keyLoop]; split <;> simp [ih]

/-- The loop changes nothing on the channels but the key bytes. -/
theorem keyLoop_chan (ks : List Byte) (s : State) :
    ∃ rest, (keyLoop ks s).chan = { s.chan with keyIn := rest } ∧ ∃ n, rest = ks.drop n := by
  induction ks generalizing s with
  | nil => exact ⟨[], by simp [keyLoop], 0, rfl⟩
  | cons b bs ih =>
    simp only [keyLoop]
    split
    · obtain ⟨rest, h, n, hn⟩ := ih (takeByte b s)
      exact ⟨rest, by simpa using h, n + 1, by simpa using hn⟩
    · exact ⟨b :: bs, by simp, 0, rfl⟩

/-! ### What it takes -/

/-- The start of a key command has taken nothing yet. -/
theorem startKey_progress {op : BitVec 2} (hop : op = opAdd ∨ op = opContains) (len : Word) (s : State) :
    KeyProgress (startKey op len s) [] where
  op := by simpa using hop
  idx := by simp
  len := by simp
  fnv := by simp [fnvHash_nil]
  mm := by simp [murmurRegs_nil]

/-- One more byte. -/
theorem takeByte_progress {s : State} {taken : List Byte} (h : KeyProgress s taken) (b : Byte)
    (hlt : taken.length < s.seq.keyLen.toNat) : KeyProgress (takeByte b s) (taken ++ [b]) where
  op := by simpa using h.op
  idx := by
    have hi := h.idx
    have := s.seq.keyLen.isLt
    simp only [takeByte_seq, BitVec.toNat_add, List.length_append, List.length_singleton]
    rw [hi, Nat.mod_eq_of_lt]
    · rfl
    · simp; omega
  len := by simpa using hlt
  fnv := by simp [fnvHash_snoc, h.fnv]
  mm := by rw [takeByte_mm, h.mm, murmurRegs_snoc]

theorem keyIdx_lt_iff {s : State} {taken : List Byte} (h : KeyProgress s taken) :
    s.seq.keyIdx < s.seq.keyLen ↔ taken.length < s.seq.keyLen.toNat := by
  rw [BitVec.lt_def, h.idx]

/-- The loop takes the bytes offered, in order, up to `KEY_LEN`, and leaves the surplus (rules R47, R135, R175). -/
theorem keyLoop_progress {s : State} {taken : List Byte} (h : KeyProgress s taken) (ks : List Byte) :
    KeyProgress (keyLoop ks s) (taken ++ ks.take (s.seq.keyLen.toNat - taken.length)) ∧
      (keyLoop ks s).chan = { s.chan with keyIn := ks.drop (s.seq.keyLen.toNat - taken.length) } := by
  induction ks generalizing s taken with
  | nil =>
    refine ⟨?_, by simp [keyLoop]⟩
    simp only [keyLoop, List.take_nil, List.append_nil]
    exact ⟨h.op, h.idx, h.len, h.fnv, h.mm⟩
  | cons b bs ih =>
    simp only [keyLoop]
    split
    · next hlt =>
      have hlt' := (keyIdx_lt_iff h).mp hlt
      obtain ⟨hp, hc⟩ := ih (takeByte_progress h b hlt')
      obtain ⟨m, hm⟩ : ∃ m, s.seq.keyLen.toNat - taken.length = m + 1 := ⟨s.seq.keyLen.toNat - taken.length - 1, by omega⟩
      have hm' : s.seq.keyLen.toNat - (taken ++ [b]).length = m := by simp; omega
      simp only [takeByte_seq, takeByte_chan, hm'] at hp hc
      rw [hm, List.take_succ_cons, List.drop_succ_cons]
      exact ⟨by simpa using hp, hc⟩
    · next hge =>
      have hge' : ¬ taken.length < s.seq.keyLen.toNat := fun hlt => hge ((keyIdx_lt_iff h).mpr hlt)
      have hm : s.seq.keyLen.toNat - taken.length = 0 := by omega
      rw [hm]
      refine ⟨?_, by simp⟩
      simp only [List.take_zero, List.append_nil]
      exact ⟨h.op, h.idx, h.len, h.fnv, h.mm⟩

/-- The finalisation of rule R95: of the running hash, with the partial chunk mixed in if there is one. -/
theorem endKey_mmHash (s : State) :
    (endKey s).mm.hash = mmFmix (if s.mm.cnt = 0#3 then s.mm.hash else mmMix s.mm.hash s.mm.k) s.seq.keyLen := by
  by_cases h : s.mm.cnt = 0#3
  · simp only [endKey, h, if_true, mmFinal_mm]
  · simp only [endKey, h, if_false, mmFinal_mm, mmChunk_mm]

/-- After the last byte the two units hold the two hashes (rules R84, R97, R135). -/
theorem endKey_hashes {s : State} {key : List Byte} (h : KeyProgress s key) (hlen : key.length = s.seq.keyLen.toNat) :
    (endKey s).fnvAcc = fnvHash key ∧ (endKey s).mm.hash = murmurHash3 key := by
  refine ⟨by simp [h.fnv], ?_⟩
  have hl : s.seq.keyLen = trunc32 key.length := by simp [trunc32, hlen]
  rw [murmurHash3_eq, ← h.mm, ← hl, endKey_mmHash]

/-- The key phase with too few bytes offered: the command waits in progress (rule R175). -/
theorem runKey_waits {s : State} {taken : List Byte} (h : KeyProgress s taken)
    (finish : State → Host.Outcome State Fault Refusal)
    (hshort : taken.length + s.chan.keyIn.length < s.seq.keyLen.toNat) :
    runKey finish s = .next (keyLoop s.chan.keyIn s) ∧
      KeyProgress (keyLoop s.chan.keyIn s) (taken ++ s.chan.keyIn) ∧
      (keyLoop s.chan.keyIn s).chan = { s.chan with keyIn := [] } := by
  obtain ⟨hp, hc⟩ := keyLoop_progress h s.chan.keyIn
  rw [List.take_of_length_le (by omega)] at hp
  rw [List.drop_of_length_le (by omega)] at hc
  refine ⟨?_, hp, hc⟩
  simp only [runKey]
  rw [if_pos ((keyIdx_lt_iff hp).mpr (by simpa using hshort))]

/-- The key phase with all bytes offered: the command finishes with the two hashes of its key, and the surplus stays on
the channel (rules R135, R175). -/
theorem runKey_done {s : State} {taken more rest : List Byte} (h : KeyProgress s taken)
    (finish : State → Host.Outcome State Fault Refusal) (hin : s.chan.keyIn = more ++ rest)
    (hlen : taken.length + more.length = s.seq.keyLen.toNat) :
    ∃ t, runKey finish s = finish t ∧ t.fnvAcc = fnvHash (taken ++ more) ∧ t.mm.hash = murmurHash3 (taken ++ more) ∧
      t.cfg = s.cfg ∧ t.filter = s.filter ∧ t.seq.cmdOp = s.seq.cmdOp ∧
      t.chan = { s.chan with keyIn := rest } ∧ t.fresh = s.fresh := by
  obtain ⟨hp, hc⟩ := keyLoop_progress h s.chan.keyIn
  have hn : s.seq.keyLen.toNat - taken.length = more.length := by omega
  rw [hn, hin, List.take_left'] at hp
  rw [hn, hin, List.drop_left'] at hc
  · have hl : (taken ++ more).length = (keyLoop (more ++ rest) s).seq.keyLen.toNat := by simpa using hlen
    refine ⟨endKey (keyLoop s.chan.keyIn s), ?_, ?_, ?_, by simp, by simp, by simp, ?_, by simp⟩
    · simp only [runKey]
      rw [if_neg]
      rw [hin, keyIdx_lt_iff hp]
      omega
    · rw [hin]; exact (endKey_hashes hp hl).1
    · rw [hin]; exact (endKey_hashes hp hl).2
    · rw [endKey_chan, hin, hc]
  all_goals rfl

/-! ### The loop and the channels -/

/-- A byte taken does not depend on the channels. -/
theorem takeByte_setChan (b : Byte) (s : State) (v : Channels) :
    takeByte b (s.setChan v) = (takeByte b s).setChan v := by
  by_cases h : s.mm.cnt + 1#3 = 4#3 <;> cases s <;> simp only at h <;>
    simp [takeByte, State.setChan, fnvAbsorb, mmPack, mmChunk, State.setFnvAcc, State.setMm, State.setSeq, h]

/-- The loop takes its bytes from its argument: what the key channel held before does not matter. -/
theorem keyLoop_setKeyIn (ks l : List Byte) (s : State) :
    keyLoop ks (s.setChan { s.chan with keyIn := l }) = keyLoop ks s := by
  induction ks generalizing s with
  | nil => simp [keyLoop, State.setChan]
  | cons b bs ih =>
    simp only [keyLoop, State.setChan_seq, takeByte_setChan]
    split
    · simpa using ih (takeByte b s)
    · simp [State.setChan]

/-- The loop over bytes offered in two parts, the first no longer than what is still wanted (rule R175). -/
theorem keyLoop_append (early late : List Byte) (s : State)
    (h : s.seq.keyIdx.toNat + early.length ≤ s.seq.keyLen.toNat) :
    keyLoop (early ++ late) s = keyLoop late (keyLoop early s) := by
  induction early generalizing s with
  | nil => rw [List.nil_append, keyLoop, keyLoop_setKeyIn]
  | cons b bs ih =>
    simp only [List.length_cons] at h
    have hlt : s.seq.keyIdx < s.seq.keyLen := by rw [BitVec.lt_def]; omega
    rw [List.cons_append, keyLoop, if_pos hlt, keyLoop, if_pos hlt]
    apply ih
    have := s.seq.keyLen.isLt
    simp only [takeByte_seq, BitVec.toNat_add, BitVec.toNat_ofNat]
    omega

/-- With the whole key taken the loop takes nothing more. -/
theorem keyLoop_stay {s : State} (h : ¬ s.seq.keyIdx < s.seq.keyLen) : keyLoop s.chan.keyIn s = s := by
  cases hk : s.chan.keyIn with
  | nil => cases s; simp only [keyLoop, State.setChan] at *; rw [← hk]
  | cons b bs => simp only [keyLoop, if_neg h]; cases s; simp only [State.setChan] at *; rw [← hk]

/-- A key command in progress holds a partial chunk: at most three bytes (rules R27, R95). -/
theorem KeyProgress.count_le {s : State} {taken : List Byte} (h : KeyProgress s taken) : s.mm.cnt.toNat ≤ 3 := by
  rw [h.mm, murmurRegs_cnt]; omega

/-- The channels are no part of a command's progress. -/
theorem KeyProgress.setChan {s : State} {taken : List Byte} (h : KeyProgress s taken) (v : Channels) :
    KeyProgress (s.setChan v) taken :=
  ⟨by simpa using h.op, by simpa using h.idx, by simpa using h.len, by simpa using h.fnv, by simpa using h.mm⟩

end Sys2Proof.Machine
end

