-- ==== Sys2Proof/Laws/Memory.lean ====
section
/-! SUPPORT. The cell array: every operation keeps the canonical form, and reads see exactly what was written. -/

namespace Sys2Proof.Machine.Memory

theorem wf_nil : Memory.wf [] := by simp [Memory.wf]

theorem wf_cons {c : Nat × Bit} {m : Memory} :
    Memory.wf (c :: m) ↔ (∀ d ∈ m, c.1 < d.1) ∧ c.2 ≠ Memory.unlisted ∧ Memory.wf m := by
  simp only [Memory.wf, List.pairwise_cons, List.forall_mem_cons]
  tauto

theorem wf_filter {m : Memory} (h : Memory.wf m) (p : Nat × Bit → Bool) : Memory.wf (m.filter p) :=
  ⟨h.1.filter p, fun c hc => h.2 c (List.mem_filter.mp hc).1⟩

theorem wf_zeroBelow {m : Memory} (h : Memory.wf m) (n : Nat) : Memory.wf (Memory.zeroBelow m n) := wf_filter h _

theorem wf_crop {m : Memory} (h : Memory.wf m) (n : Nat) : Memory.wf (Memory.crop m n) := wf_filter h _

/-- Every entry of a written array is an old one or the written one. -/
theorem mem_write {m : Memory} {i : Nat} {b : Bit} {c : Nat × Bit} (h : c ∈ Memory.write m i b) :
    c ∈ m ∨ c = (i, b) := by
  induction m with
  | nil => simp only [Memory.write] at h; split at h <;> simp_all
  | cons d m ih =>
    obtain ⟨j, d⟩ := d
    simp only [Memory.write] at h
    split at h
    · split at h <;> simp_all; tauto
    · split at h
      · split at h <;> simp_all; tauto
      · rcases List.mem_cons.mp h with rfl | h
        · simp
        · rcases ih h with h | h <;> simp [h]

/-- Writing a cell keeps the canonical form. -/
theorem wf_write {m : Memory} (h : Memory.wf m) (i : Nat) (b : Bit) : Memory.wf (Memory.write m i b) := by
  induction m with
  | nil =>
    simp only [Memory.write]
    split
    · exact wf_nil
    · next hb => exact wf_cons.mpr ⟨by simp, hb, wf_nil⟩
  | cons d m ih =>
    obtain ⟨j, d⟩ := d
    obtain ⟨hlt, hd, hm⟩ := wf_cons.mp h
    simp only [Memory.write]
    split
    · next hij =>
      split
      · exact h
      · next hb =>
        refine wf_cons.mpr ⟨?_, hb, h⟩
        intro e he
        rcases List.mem_cons.mp he with rfl | he
        · exact hij
        · exact hij.trans (hlt e he)
    · next hij =>
      split
      · next heq =>
        split
        · exact hm
        · next hb => exact wf_cons.mpr ⟨fun e he => heq ▸ hlt e he, hb, hm⟩
      · next hne =>
        refine wf_cons.mpr ⟨fun e he => ?_, hd, ih hm⟩
        rcases mem_write he with he | rfl
        · exact hlt e he
        · show j < i
          omega

/-- A cell below every listed index reads as an unlisted one. -/
theorem read_of_lt {m : Memory} {i : Nat} (h : ∀ c ∈ m, i < c.1) : Memory.read m i = Memory.unlisted := by
  induction m with
  | nil => rfl
  | cons d m ih =>
    obtain ⟨j, d⟩ := d
    have hj := h (j, d) (by simp)
    simp only [Memory.read]
    rw [if_neg (by simp at hj; omega)]
    exact ih fun c hc => h c (by simp [hc])

/-- Read after write, the written cell and every other. -/
theorem read_write {m : Memory} (h : Memory.wf m) (i j : Nat) (b : Bit) :
    Memory.read (Memory.write m i b) j = if j = i then b else Memory.read m j := by
  induction m with
  | nil =>
    simp only [Memory.write]
    split
    · next hb => split <;> simp_all [Memory.read]
    · simp [Memory.read]
  | cons d m ih =>
    obtain ⟨k, d⟩ := d
    obtain ⟨hlt, hd, hm⟩ := wf_cons.mp h
    simp only [Memory.write]
    split
    · next hik =>
      split
      · next hb =>
        split
        · next hji =>
          subst hji
          rw [hb]
          refine read_of_lt fun c hc => ?_
          rcases List.mem_cons.mp hc with rfl | hc
          · exact hik
          · exact hik.trans (hlt c hc)
        · rfl
      · simp [Memory.read]
    · next hik =>
      split
      · next heq =>
        subst heq
        split
        · next hb =>
          split
          · next hji =>
            subst hji
            rw [hb]
            exact read_of_lt hlt
          · next hji => simp [Memory.read, hji]
        · simp only [Memory.read]
          split <;> simp_all
      · next hne =>
        simp only [Memory.read]
        split
        · next hjk => subst hjk; rw [if_neg (by omega)]
        · exact ih hm

/-- The cells that a filter of entries keeps read as before; the others read as unlisted. -/
theorem read_filter {m : Memory} (p : Nat → Bool) (i : Nat) :
    Memory.read (m.filter fun c => p c.1) i = if p i then Memory.read m i else Memory.unlisted := by
  induction m with
  | nil => simp [Memory.read]
  | cons d m ih =>
    obtain ⟨j, d⟩ := d
    simp only [List.filter_cons]
    by_cases hj : p j
    · simp only [hj, if_true, Memory.read]
      by_cases hij : i = j
      · subst hij; simp [hj]
      · simp only [hij, if_false]; exact ih
    · simp only [Bool.not_eq_true] at hj
      simp only [hj, Bool.false_eq_true, if_false, Memory.read]
      rw [ih]
      by_cases hij : i = j
      · subst hij; simp [hj]
      · simp [hij]

theorem read_zeroBelow (m : Memory) (n i : Nat) :
    Memory.read (Memory.zeroBelow m n) i = if n ≤ i then Memory.read m i else Memory.unlisted := by
  have := read_filter (m := m) (fun j => decide (n ≤ j)) i
  simpa [Memory.zeroBelow] using this

theorem read_crop (m : Memory) (n i : Nat) :
    Memory.read (Memory.crop m n) i = if i < n then Memory.read m i else Memory.unlisted := by
  have := read_filter (m := m) (fun j => decide (j < n)) i
  simpa [Memory.crop] using this

/-- The cells that a bulk clear leaves: none is listed. -/
@[simp] theorem crop_zeroBelow (m : Memory) (n : Nat) : Memory.crop (Memory.zeroBelow m n) n = [] := by
  simp only [Memory.crop, Memory.zeroBelow, List.filter_filter, List.filter_eq_nil_iff]
  intro c _
  simp

/-- Two canonical arrays that read the same are the same list. -/
theorem ext_read {m m' : Memory} (h : Memory.wf m) (h' : Memory.wf m')
    (heq : ∀ i, Memory.read m i = Memory.read m' i) : m = m' := by
  induction m generalizing m' with
  | nil =>
    cases m' with
    | nil => rfl
    | cons c m' =>
      have := heq c.1
      obtain ⟨_, hc, _⟩ := wf_cons.mp h'
      simp [Memory.read] at this
      exact absurd this.symm hc
  | cons c m ih =>
    obtain ⟨hlt, hc, hm⟩ := wf_cons.mp h
    cases m' with
    | nil =>
      have := heq c.1
      simp [Memory.read] at this
      exact absurd this hc
    | cons c' m' =>
      obtain ⟨hlt', hc', hm'⟩ := wf_cons.mp h'
      obtain ⟨j, b⟩ := c
      obtain ⟨j', b'⟩ := c'
      have hj : j = j' := by
        rcases Nat.lt_trichotomy j j' with hjj | hjj | hjj
        · have e1 := heq j
          have e2 : Memory.read ((j', b') :: m') j = Memory.unlisted :=
            read_of_lt fun d hd => by
              rcases List.mem_cons.mp hd with rfl | hd
              · exact hjj
              · exact hjj.trans (hlt' d hd)
          rw [e2] at e1
          simp [Memory.read] at e1
          exact absurd e1 hc
        · exact hjj
        · have e1 := heq j'
          have e2 : Memory.read ((j, b) :: m) j' = Memory.unlisted :=
            read_of_lt fun d hd => by
              rcases List.mem_cons.mp hd with rfl | hd
              · exact hjj
              · exact hjj.trans (hlt d hd)
          rw [e2] at e1
          simp [Memory.read] at e1
          exact absurd e1.symm hc'
      subst hj
      have hb : b = b' := by simpa [Memory.read] using heq j
      subst hb
      have : m = m' := ih hm hm' fun i => by
        by_cases hi : i = j
        · subst hi; rw [read_of_lt hlt, read_of_lt hlt']
        · simpa [Memory.read, hi] using heq i
      rw [this]

end Sys2Proof.Machine.Memory
end

