-- ==== Sys2Proof/Laws/Units.lean ====
section
/-! SUPPORT. The indexer and the bit array: what each operation answers and what it leaves alone. -/

namespace Sys2Proof.Machine

/-- IDX_DERIVE with `SIZE > 0` (rules R106, R107). -/
theorem idxDerive_eq (a b : Word) {s : State} (hs : s.filter.size ≠ 0#32) :
    idxDerive a b s = some (s.setIdx
      { h1 := a, h2 := b, h3 := h3Of a b, pos1 := a % s.filter.size, pos2 := b % s.filter.size,
        pos3 := h3Of a b % s.filter.size }) := by
  simp [idxDerive, umod32_eq, hs]

theorem idxDerive_none (a b : Word) {s : State} (hs : s.filter.size = 0#32) : idxDerive a b s = none := by
  simp [idxDerive, hs]

/-- The positions of a key (rule R110). -/
theorem positions_eq (key : List Byte) {size : Word} (hs : size ≠ 0#32) :
    positions key size = some (fnvHash key % size, murmurHash3 key % size, h3Of (fnvHash key) (murmurHash3 key) % size) := by
  simp [positions, umod32_eq, hs]

/-- Whether a cell exists is a matter of the filter's `CONSTRUCTED` and `SIZE` (rules R23, R41). -/
theorem cellExists_iff (i : Word) (s : State) :
    cellExists i s = true ↔ s.filter.constructed = true ∧ i.toNat < s.filter.size.toNat := by
  simp [cellExists, BitVec.lt_def]

theorem cellRead_eq {i : Word} {s : State} (h : cellExists i s = true) :
    cellRead i s = some (Memory.read s.filter.cells i.toNat) := by simp [cellRead, h]

theorem cellRead_none {i : Word} {s : State} (h : cellExists i s = false) : cellRead i s = none := by
  simp [cellRead, h]

/-- A cell read depends on the filter state alone (rule R43). -/
theorem cellRead_congr (i : Word) {s t : State} (h : t.filter = s.filter) : cellRead i t = cellRead i s := by
  simp [cellRead, cellExists, h]

theorem cellSet_eq {i : Word} {s : State} (h : cellExists i s = true) :
    cellSet i s = some (s.setFilter { s.filter with cells := Memory.write s.filter.cells i.toNat 1#1 }) := by
  simp [cellSet, h]

theorem cellSet_none {i : Word} {s : State} (h : cellExists i s = false) : cellSet i s = none := by
  simp [cellSet, h]

/-- The array after BA_SET3. -/
def setThree (m : Memory) (p1 p2 p3 : Word) : Memory :=
  Memory.write (Memory.write (Memory.write m p1.toNat 1#1) p2.toNat 1#1) p3.toNat 1#1

/-- BA_SET3 of three existing cells (rule R117). -/
theorem baSet3_eq {p1 p2 p3 : Word} {s : State} (h1 : cellExists p1 s = true) (h2 : cellExists p2 s = true)
    (h3 : cellExists p3 s = true) :
    baSet3 p1 p2 p3 s = some (s.setFilter { s.filter with cells := setThree s.filter.cells p1 p2 p3 }) := by
  rw [cellExists_iff] at h1 h2 h3
  rw [baSet3, cellSet_eq ((cellExists_iff _ _).mpr h1), Option.bind_some,
    cellSet_eq ((cellExists_iff _ _).mpr (by simpa using h2)), Option.bind_some,
    cellSet_eq ((cellExists_iff _ _).mpr (by simpa using h3))]
  rfl

/-- BA_SET3 answers only where its cells exist. -/
theorem baSet3_cases {p1 p2 p3 : Word} {s t : State} (h : baSet3 p1 p2 p3 s = some t) :
    cellExists p1 s = true ∧ cellExists p2 s = true ∧ cellExists p3 s = true ∧
      t = s.setFilter { s.filter with cells := setThree s.filter.cells p1 p2 p3 } := by
  by_cases h1 : cellExists p1 s = true
  · by_cases h2 : cellExists p2 s = true
    · by_cases h3 : cellExists p3 s = true
      · rw [baSet3_eq h1 h2 h3] at h
        exact ⟨h1, h2, h3, (Option.some.inj h).symm⟩
      · simp only [cellExists_iff] at h1 h2 h3
        rw [baSet3, cellSet_eq ((cellExists_iff _ _).mpr h1), Option.bind_some,
          cellSet_eq ((cellExists_iff _ _).mpr (by simpa using h2)), Option.bind_some, cellSet_none] at h
        · cases h
        · rw [Bool.eq_false_iff, ne_eq, cellExists_iff]; simpa using h3
    · simp only [cellExists_iff] at h1 h2
      rw [baSet3, cellSet_eq ((cellExists_iff _ _).mpr h1), Option.bind_some, cellSet_none] at h
      · cases h
      · rw [Bool.eq_false_iff, ne_eq, cellExists_iff]; simpa using h2
  · rw [baSet3, cellSet_none (by simpa using h1)] at h
    cases h

theorem wf_setThree {m : Memory} (h : Memory.wf m) (p1 p2 p3 : Word) : Memory.wf (setThree m p1 p2 p3) :=
  Memory.wf_write (Memory.wf_write (Memory.wf_write h _ _) _ _) _ _

/-- The three cells are 1 and every other cell is as before, whichever positions are equal (rules R117, R120). -/
theorem read_setThree {m : Memory} (h : Memory.wf m) (p1 p2 p3 : Word) (i : Nat) :
    Memory.read (setThree m p1 p2 p3) i =
      if i = p1.toNat ∨ i = p2.toNat ∨ i = p3.toNat then 1#1 else Memory.read m i := by
  have w1 := Memory.wf_write h p1.toNat 1#1
  have w2 := Memory.wf_write w1 p2.toNat 1#1
  rw [setThree, Memory.read_write w2, Memory.read_write w1, Memory.read_write h]
  by_cases e1 : i = p1.toNat <;> by_cases e2 : i = p2.toNat <;> by_cases e3 : i = p3.toNat <;> simp [e1, e2, e3]

theorem mem_setThree {m : Memory} {p1 p2 p3 : Word} {c : Nat × Bit} (h : c ∈ setThree m p1 p2 p3) :
    c ∈ m ∨ c.1 = p1.toNat ∨ c.1 = p2.toNat ∨ c.1 = p3.toNat := by
  rcases Memory.mem_write h with h | rfl
  · rcases Memory.mem_write h with h | rfl
    · rcases Memory.mem_write h with h | rfl
      · exact .inl h
      · simp
    · simp
  · simp

/-- BA_TEST3 of three existing cells (rule R116). -/
theorem baTest3_eq {p1 p2 p3 : Word} {s : State} (h1 : cellExists p1 s = true) (h2 : cellExists p2 s = true)
    (h3 : cellExists p3 s = true) :
    baTest3 p1 p2 p3 s = some (baBits (Memory.read s.filter.cells p1.toNat) (Memory.read s.filter.cells p2.toNat)
      (Memory.read s.filter.cells p3.toNat)) := by
  simp [baTest3, cellRead_eq, h1, h2, h3]

/-- `HIT` is the AND of the three bits (rule R116). -/
theorem baHit_baBits (b1 b2 b3 : Bit) : baHit (baBits b1 b2 b3) = b1 &&& b2 &&& b3 := by
  revert b1 b2 b3; decide

/-- `HIT = 1` if and only if all three bits are 1 (rule R116). -/
theorem baHit_eq_one (b1 b2 b3 : Bit) : baHit (baBits b1 b2 b3) = 1#1 ↔ b1 = 1#1 ∧ b2 = 1#1 ∧ b3 = 1#1 := by
  revert b1 b2 b3; decide

/-- A bulk clear leaves no cell listed (rule R118). -/
@[simp] theorem baClearAll_cells (n : Word) (s : State) : (baClearAll n s).filter.cells = [] := by simp

/-- A position is a cell of the array (rule R108). -/
theorem cellExists_umod (a : Word) {s : State} (hc : s.filter.constructed = true) (hs : s.filter.size ≠ 0#32) :
    cellExists (a % s.filter.size) s = true := by
  rw [cellExists_iff]
  exact ⟨hc, umod_lt a hs⟩

end Sys2Proof.Machine
end

