-- ==== Sys2Proof/Laws/Commands.lean ====
section
/-! SUPPORT. The four commands: one equation for each way a command can go. -/

namespace Sys2Proof.Machine

/-- A command is over: the filter state is `f`, the key channel holds `rest`, one response is added, and nothing else of
the channels or the parameter is changed. -/
structure Done (s t : State) (f : Filter) (rest : List Byte) (st : Status) (res : Bit) (a b : Word) : Prop where
  cfg : t.cfg = s.cfg
  filter : t.filter = f
  finished : t.inProgress = false
  chan : t.chan = { s.chan with keyIn := rest, rspOut := s.chan.rspOut ++ [rspWord st res a b] }
  count : t.mm.cnt.toNat ≤ 4
  fresh : t.fresh = s.fresh + 11

theorem respond_count (st : Status) (res : Bit) (a b : Word) (s : State) :
    (respond st res a b s).mm.cnt.toNat ≤ 4 := by
  have h := (Config.freeCount s.fresh).isLt
  simp only [respond, forgetWork, State.setFresh_mm, State.setIdx_mm, State.setSeq_mm, State.setMm_mm,
    State.setInProgress_fresh, State.setChan_fresh, BitVec.toNat_ofNat]
  exact Nat.le_of_lt_succ (lt_of_le_of_lt (Nat.mod_le _ _) h)

/-- A response ends its command. -/
theorem respond_done {s u : State} {rest : List Byte} (st : Status) (res : Bit) (a b : Word) (hcfg : u.cfg = s.cfg)
    (hchan : u.chan = { s.chan with keyIn := rest }) (hfresh : u.fresh = s.fresh) :
    Done s (respond st res a b u) u.filter rest st res a b where
  cfg := by simp [hcfg]
  filter := by simp
  finished := by simp
  chan := by simp [hchan]
  count := respond_count st res a b u
  fresh := by simp [hfresh]

theorem Done.frame {s t : State} {f : Filter} {rest : List Byte} {st : Status} {res : Bit} {a b : Word}
    (h : Done s t f rest st res a b) : CommandFrame s t where
  cfg := h.cfg
  rst := by rw [h.chan]
  rspReady := by rw [h.chan]
  cmdIn := by rw [h.chan]
  rspTaken := by rw [h.chan]

theorem Done.answered {s t : State} {f : Filter} {rest : List Byte} {st : Status} {res : Bit} {a b : Word}
    (h : Done s t f rest st res a b) : Answered s t st res a b where
  finished := h.finished
  response := by rw [h.chan]

/-! ### CREATE (rule R131) -/

theorem execCreate_zero (s : State) :
    ∃ t, execCreate 0#32 s = .next t ∧ Done s t s.filter s.chan.keyIn .invalidArgument 0#1 0#32 0#32 :=
  ⟨_, rfl, respond_done (u := latchOp opCreate s) _ _ _ _ (by simp) (by simp) (by simp)⟩

theorem execCreate_capacity {size : Word} {s : State} (h : s.cfg.nmax.toNat < size.toNat) :
    ∃ t, execCreate size s = .next t ∧ Done s t s.filter s.chan.keyIn .capacity 0#1 0#32 0#32 := by
  have h0 : size ≠ 0#32 := by rintro rfl; simp at h
  refine ⟨_, ?_, respond_done (u := latchOp opCreate s) _ _ _ _ (by simp) (by simp) (by simp)⟩
  simp only [execCreate, if_neg h0]
  rw [if_pos (by simpa [BitVec.lt_def] using h)]
  rfl

theorem execCreate_ok {size : Word} {s : State} (h : createSucceeds size s) :
    ∃ t, execCreate size s = .next t ∧
      Done s t { size := size, constructed := true, cells := [] } s.chan.keyIn .ok 0#1 0#32 0#32 := by
  refine ⟨_, ?_, respond_done
    (u := (latchOp opCreate s).setFilter { size := size, constructed := true, cells := [] }) _ _ _ _ (by simp) (by simp)
    (by simp)⟩
  simp only [execCreate, if_neg h.1]
  rw [if_neg (by simpa [BitVec.lt_def] using h.2)]
  congr 2
  simp [baClearAll, State.setFilter]

/-- CREATE goes one of three ways. -/
theorem create_cases (size : Word) (s : State) :
    size = 0#32 ∨ s.cfg.nmax.toNat < size.toNat ∨ createSucceeds size s := by
  by_cases h0 : size = 0#32
  · exact .inl h0
  · rcases Nat.lt_or_ge s.cfg.nmax.toNat size.toNat with h | h
    · exact .inr (.inl h)
    · exact .inr (.inr ⟨h0, h⟩)

/-! ### CLEAR (rule R134) -/

theorem execClear_none {s : State} (x : Word) (h : s.filter.constructed = false) :
    ∃ t, execClear x s = .next t ∧ Done s t s.filter s.chan.keyIn .notConstructed 0#1 0#32 0#32 := by
  refine ⟨_, ?_, respond_done (u := latchOp opClear s) _ _ _ _ (by simp) (by simp) (by simp)⟩
  simp only [execClear]
  rw [if_pos (by simpa using h)]
  rfl

theorem execClear_ok {s : State} (x : Word) (h : s.filter.constructed = true) :
    ∃ t, execClear x s = .next t ∧
      Done s t { s.filter with cells := [] } s.chan.keyIn .ok 0#1 0#32 0#32 := by
  refine ⟨_, ?_, respond_done (u := (latchOp opClear s).setFilter { s.filter with cells := [] }) _ _ _ _ (by simp)
    (by simp) (by simp)⟩
  simp only [execClear]
  rw [if_neg (by simp [h])]
  congr 2
  simp [baClearAll, State.setFilter]

/-- The filter state with the cells of the two hashes set (rules R106, R107, R117). -/
def withThree (f : Filter) (a b : Word) : Filter :=
  { f with cells := setThree f.cells (a % f.size) (b % f.size) (h3Of a b % f.size) }

/-- The AND of the three cells of the two hashes (rules R106, R107, R116). -/
def andThree (f : Filter) (a b : Word) : Bit :=
  Memory.read f.cells (a % f.size).toNat &&& Memory.read f.cells (b % f.size).toNat &&&
    Memory.read f.cells (h3Of a b % f.size).toNat

/-! ### The ends of ADD and CONTAINS (rules R132, R133) -/

theorem finishAdd_none {s : State} (h : s.filter.constructed = false) :
    finishAdd s = .next (answerError .notConstructed s.fnvAcc s.mm.hash s) := by simp [finishAdd, h]

theorem finishAdd_zero {s : State} (h : s.filter.constructed = true) (hs : s.filter.size = 0#32) :
    finishAdd s = .fault .zeroDivisor := by simp [finishAdd, h, idxDerive_none _ _ hs]

theorem finishAdd_ok {s : State} (h : s.filter.constructed = true) (hs : s.filter.size ≠ 0#32) :
    ∃ u, finishAdd s = .next (respond .ok 0#1 s.fnvAcc s.mm.hash u) ∧ u.cfg = s.cfg ∧ u.chan = s.chan ∧
      u.fresh = s.fresh ∧ u.filter = withThree s.filter s.fnvAcc s.mm.hash := by
  simp only [finishAdd, h, idxDerive_eq _ _ hs]
  rw [if_neg (by simp)]
  simp only [State.setIdx_idx]
  rw [baSet3_eq]
  · exact ⟨_, rfl, by simp, by simp, by simp, by simp [withThree]⟩
  all_goals
    rw [cellExists_iff]
    exact ⟨by simpa using h, by simpa [BitVec.lt_def] using umod_lt _ hs⟩

theorem finishContains_none {s : State} (h : s.filter.constructed = false) :
    finishContains s = .next (answerError .notConstructed s.fnvAcc s.mm.hash s) := by simp [finishContains, h]

theorem finishContains_zero {s : State} (h : s.filter.constructed = true) (hs : s.filter.size = 0#32) :
    finishContains s = .fault .zeroDivisor := by simp [finishContains, h, idxDerive_none _ _ hs]

theorem finishContains_ok {s : State} (h : s.filter.constructed = true) (hs : s.filter.size ≠ 0#32) :
    ∃ u, finishContains s = .next (respond .ok (andThree s.filter s.fnvAcc s.mm.hash) s.fnvAcc s.mm.hash u) ∧
      u.cfg = s.cfg ∧ u.chan = s.chan ∧ u.fresh = s.fresh ∧ u.filter = s.filter := by
  simp only [finishContains, h, idxDerive_eq _ _ hs]
  rw [if_neg (by simp)]
  simp only [State.setIdx_idx]
  rw [baTest3_eq]
  · exact ⟨_, by simp only [baHit_baBits]; rfl, by simp, by simp, by simp, by simp⟩
  all_goals
    rw [cellExists_iff]
    exact ⟨by simpa using h, by simpa [BitVec.lt_def] using umod_lt _ hs⟩

/-! ### ADD and CONTAINS with their whole key -/

variable {s : State} {len : Word} {taken more rest : List Byte}

/-- ADD with its whole key and no filter (rules R132, R152). -/
theorem runAdd_none (h : KeyProgress s taken) (hin : s.chan.keyIn = more ++ rest)
    (hlen : taken.length + more.length = s.seq.keyLen.toNat) (hc : s.filter.constructed = false) :
    ∃ t, runKey finishAdd s = .next t ∧
      Done s t s.filter rest .notConstructed 0#1 (fnvHash (taken ++ more)) (murmurHash3 (taken ++ more)) := by
  obtain ⟨t, ht, hf, hm, hcfg, hfil, -, hch, hfr⟩ := runKey_done h finishAdd hin hlen
  rw [ht, finishAdd_none (by rw [hfil]; exact hc), hf, hm]
  refine ⟨_, rfl, ?_⟩
  rw [← hfil]
  exact respond_done _ _ _ _ hcfg hch hfr

/-- ADD with its whole key (rule R132). -/
theorem runAdd_ok (h : KeyProgress s taken) (hin : s.chan.keyIn = more ++ rest)
    (hlen : taken.length + more.length = s.seq.keyLen.toNat) (hc : s.filter.constructed = true)
    (hs : s.filter.size ≠ 0#32) :
    ∃ t, runKey finishAdd s = .next t ∧
      Done s t (withThree s.filter (fnvHash (taken ++ more)) (murmurHash3 (taken ++ more))) rest .ok 0#1
      (fnvHash (taken ++ more)) (murmurHash3 (taken ++ more)) := by
  obtain ⟨t, ht, hf, hm, hcfg, hfil, -, hch, hfr⟩ := runKey_done h finishAdd hin hlen
  obtain ⟨u, hu, hucfg, huch, hufr, hufil⟩ := finishAdd_ok (s := t) (by rw [hfil]; exact hc) (by rw [hfil]; exact hs)
  rw [ht, hu, hf, hm]
  refine ⟨_, rfl, ?_⟩
  rw [hf, hm, hfil] at hufil
  have := respond_done (s := s) (u := u) (rest := rest) .ok 0#1 (fnvHash (taken ++ more)) (murmurHash3 (taken ++ more))
    (hucfg.trans hcfg) (huch.trans hch) (hufr.trans hfr)
  rw [hufil] at this
  exact this

/-- CONTAINS with its whole key and no filter (rules R133, R152). -/
theorem runContains_none (h : KeyProgress s taken) (hin : s.chan.keyIn = more ++ rest)
    (hlen : taken.length + more.length = s.seq.keyLen.toNat) (hc : s.filter.constructed = false) :
    ∃ t, runKey finishContains s = .next t ∧
      Done s t s.filter rest .notConstructed 0#1 (fnvHash (taken ++ more)) (murmurHash3 (taken ++ more)) := by
  obtain ⟨t, ht, hf, hm, hcfg, hfil, -, hch, hfr⟩ := runKey_done h finishContains hin hlen
  rw [ht, finishContains_none (by rw [hfil]; exact hc), hf, hm]
  refine ⟨_, rfl, ?_⟩
  rw [← hfil]
  exact respond_done _ _ _ _ hcfg hch hfr

/-- CONTAINS with its whole key (rule R133). -/
theorem runContains_ok (h : KeyProgress s taken) (hin : s.chan.keyIn = more ++ rest)
    (hlen : taken.length + more.length = s.seq.keyLen.toNat) (hc : s.filter.constructed = true)
    (hs : s.filter.size ≠ 0#32) :
    ∃ t, runKey finishContains s = .next t ∧
      Done s t s.filter rest .ok (andThree s.filter (fnvHash (taken ++ more)) (murmurHash3 (taken ++ more)))
      (fnvHash (taken ++ more)) (murmurHash3 (taken ++ more)) := by
  obtain ⟨t, ht, hf, hm, hcfg, hfil, -, hch, hfr⟩ := runKey_done h finishContains hin hlen
  obtain ⟨u, hu, hucfg, huch, hufr, hufil⟩ :=
    finishContains_ok (s := t) (by rw [hfil]; exact hc) (by rw [hfil]; exact hs)
  rw [ht, hu, hf, hm, hfil]
  refine ⟨_, rfl, ?_⟩
  have := respond_done (s := s) (u := u) (rest := rest) .ok
    (andThree s.filter (fnvHash (taken ++ more)) (murmurHash3 (taken ++ more))) (fnvHash (taken ++ more))
    (murmurHash3 (taken ++ more)) (hucfg.trans hcfg) (huch.trans hch) (hufr.trans hfr)
  rw [hufil, hfil] at this
  exact this

/-- How a cell reads after an ADD of a key with the hashes `a` and `b` (rules R117, R120, R132). -/
theorem read_withThree (f : Filter) (a b : Word) (h : Memory.wf f.cells) (i : Nat) :
    Memory.read (withThree f a b).cells i =
      if i = (a % f.size).toNat ∨ i = (b % f.size).toNat ∨ i = (h3Of a b % f.size).toNat then 1#1
      else Memory.read f.cells i :=
  read_setThree h _ _ _ i

/-- A key command starts its key phase on the same filter state and channels. -/
theorem Done.of_start {op : BitVec 2} {t : State} {f : Filter} {st : Status} {res : Bit} {a b : Word}
    (h : Done (startKey op len s) t f rest st res a b) : Done s t f rest st res a b where
  cfg := by simpa using h.cfg
  filter := h.filter
  finished := h.finished
  chan := by simpa using h.chan
  count := h.count
  fresh := by simpa using h.fresh

/-! ### `exec`: every way a command can go (rules R130 to R134) -/

/-- A key command that has run dry: it waits in progress, with its progress in the working registers (rule R175). -/
structure Waits (s t : State) (op : BitVec 2) (len : Word) : Prop where
  cfg : t.cfg = s.cfg
  filter : t.filter = s.filter
  chan : t.chan = { s.chan with keyIn := [] }
  inProgress : t.inProgress = true
  progress : KeyProgress t s.chan.keyIn
  keyLen : t.seq.keyLen = len
  cmdOp : t.seq.cmdOp = op
  idx : t.idx = s.idx
  fresh : t.fresh = s.fresh

theorem startKey_waits (finish : State → Host.Outcome State Fault Refusal) {s : State} {len : Word} {op : BitVec 2}
    (hop : op = opAdd ∨ op = opContains) (h : s.chan.keyIn.length < len.toNat) :
    ∃ t, runKey finish (startKey op len s) = .next t ∧ Waits s t op len := by
  obtain ⟨h1, h2, h3⟩ := runKey_waits (startKey_progress hop len s) finish (by simpa using h)
  exact ⟨_, h1, by simp, by simp, by rw [h3]; simp, by simp, by simpa using h2, by simp, by simp, by simp, by simp⟩

theorem execAdd_none {key : List Byte} (hlen : key.length = len.toNat) (hin : s.chan.keyIn = key ++ rest)
    (hc : s.filter.constructed = false) : ∃ t, execAdd len s = .next t ∧
      Done s t s.filter rest .notConstructed 0#1 (fnvHash key) (murmurHash3 key) := by
  obtain ⟨t, ht, hd⟩ := runAdd_none (startKey_progress (.inl rfl) len s) (more := key) (rest := rest) (by simpa using hin)
    (by simpa using hlen) (by simpa using hc)
  exact ⟨t, ht, by simpa using hd.of_start⟩

theorem execAdd_ok {key : List Byte} (hlen : key.length = len.toNat) (hin : s.chan.keyIn = key ++ rest)
    (hc : s.filter.constructed = true) (hs : s.filter.size ≠ 0#32) : ∃ t, execAdd len s = .next t ∧
      Done s t (withThree s.filter (fnvHash key) (murmurHash3 key)) rest .ok 0#1 (fnvHash key) (murmurHash3 key) := by
  obtain ⟨t, ht, hd⟩ := runAdd_ok (startKey_progress (.inl rfl) len s) (more := key) (rest := rest) (by simpa using hin)
    (by simpa using hlen) (by simpa using hc) (by simpa using hs)
  exact ⟨t, ht, by simpa using hd.of_start⟩

theorem execContains_none {key : List Byte} (hlen : key.length = len.toNat) (hin : s.chan.keyIn = key ++ rest)
    (hc : s.filter.constructed = false) : ∃ t, execContains len s = .next t ∧
      Done s t s.filter rest .notConstructed 0#1 (fnvHash key) (murmurHash3 key) := by
  obtain ⟨t, ht, hd⟩ := runContains_none (startKey_progress (.inr rfl) len s) (more := key) (rest := rest)
    (by simpa using hin) (by simpa using hlen) (by simpa using hc)
  exact ⟨t, ht, by simpa using hd.of_start⟩

theorem execContains_ok {key : List Byte} (hlen : key.length = len.toNat) (hin : s.chan.keyIn = key ++ rest)
    (hc : s.filter.constructed = true) (hs : s.filter.size ≠ 0#32) : ∃ t, execContains len s = .next t ∧
      Done s t s.filter rest .ok (andThree s.filter (fnvHash key) (murmurHash3 key)) (fnvHash key) (murmurHash3 key) := by
  obtain ⟨t, ht, hd⟩ := runContains_ok (startKey_progress (.inr rfl) len s) (more := key) (rest := rest)
    (by simpa using hin) (by simpa using hlen) (by simpa using hc) (by simpa using hs)
  exact ⟨t, ht, by simpa using hd.of_start⟩

/-- The only stop of a command: its whole key is there, and the filter exists with no cell (log entry 7). -/
theorem execAdd_zero (hl : ¬ s.chan.keyIn.length < len.toNat) (hc : s.filter.constructed = true)
    (hs : s.filter.size = 0#32) : execAdd len s = .fault .zeroDivisor := by
  obtain ⟨t, ht, -, -, -, hf, -⟩ := runKey_done (startKey_progress (.inl rfl) len s) finishAdd
    (more := s.chan.keyIn.take len.toNat) (rest := s.chan.keyIn.drop len.toNat) (by simp) (by simp; omega)
  rw [execAdd, ht, finishAdd_zero] <;> simp [hf, hc, hs]

theorem execContains_zero (hl : ¬ s.chan.keyIn.length < len.toNat) (hc : s.filter.constructed = true)
    (hs : s.filter.size = 0#32) : execContains len s = .fault .zeroDivisor := by
  obtain ⟨t, ht, -, -, -, hf, -⟩ := runKey_done (startKey_progress (.inr rfl) len s) finishContains
    (more := s.chan.keyIn.take len.toNat) (rest := s.chan.keyIn.drop len.toNat) (by simp) (by simp; omega)
  rw [execContains, ht, finishContains_zero] <;> simp [hf, hc, hs]

/-- Every way a command can go when it gives a next state, with its conditions and all of its effect. -/
inductive CommandWay (i : Instr) (s t : State) : Prop where
  | createZero (hi : i = .create 0#32) (done : Done s t s.filter s.chan.keyIn .invalidArgument 0#1 0#32 0#32)
  | createCapacity (size : Word) (hi : i = .create size) (h : s.cfg.nmax.toNat < size.toNat)
      (done : Done s t s.filter s.chan.keyIn .capacity 0#1 0#32 0#32)
  | createOk (size : Word) (hi : i = .create size) (h : createSucceeds size s)
      (done : Done s t { size := size, constructed := true, cells := [] } s.chan.keyIn .ok 0#1 0#32 0#32)
  | clearNone (x : Word) (hi : i = .clear x) (hc : s.filter.constructed = false)
      (done : Done s t s.filter s.chan.keyIn .notConstructed 0#1 0#32 0#32)
  | clearOk (x : Word) (hi : i = .clear x) (hc : s.filter.constructed = true)
      (done : Done s t { s.filter with cells := [] } s.chan.keyIn .ok 0#1 0#32 0#32)
  | waits (op : BitVec 2) (len : Word) (hi : i = .add len ∧ op = opAdd ∨ i = .contains len ∧ op = opContains)
      (hl : s.chan.keyIn.length < len.toNat) (waits : Waits s t op len)
  | keyNone (len : Word) (hi : i = .add len ∨ i = .contains len) (hl : ¬ s.chan.keyIn.length < len.toNat)
      (hc : s.filter.constructed = false)
      (done : Done s t s.filter (s.chan.keyIn.drop len.toNat) .notConstructed 0#1
        (fnvHash (s.chan.keyIn.take len.toNat)) (murmurHash3 (s.chan.keyIn.take len.toNat)))
  | addOk (len : Word) (hi : i = .add len) (hl : ¬ s.chan.keyIn.length < len.toNat)
      (hc : s.filter.constructed = true) (hs : s.filter.size ≠ 0#32)
      (done : Done s t (withThree s.filter (fnvHash (s.chan.keyIn.take len.toNat))
        (murmurHash3 (s.chan.keyIn.take len.toNat))) (s.chan.keyIn.drop len.toNat) .ok 0#1
        (fnvHash (s.chan.keyIn.take len.toNat)) (murmurHash3 (s.chan.keyIn.take len.toNat)))
  | containsOk (len : Word) (hi : i = .contains len) (hl : ¬ s.chan.keyIn.length < len.toNat)
      (hc : s.filter.constructed = true) (hs : s.filter.size ≠ 0#32)
      (done : Done s t s.filter (s.chan.keyIn.drop len.toNat) .ok
        (andThree s.filter (fnvHash (s.chan.keyIn.take len.toNat)) (murmurHash3 (s.chan.keyIn.take len.toNat)))
        (fnvHash (s.chan.keyIn.take len.toNat)) (murmurHash3 (s.chan.keyIn.take len.toNat)))

/-- One inversion for all commands: a next state of `exec` came about in one of these ways. -/
theorem exec_cases {i : Instr} {s t : State} (h : exec i s = .next t) : CommandWay i s t := by
  have key : ∀ {len : Word}, ¬ s.chan.keyIn.length < len.toNat → (s.chan.keyIn.take len.toNat).length = len.toNat ∧
      s.chan.keyIn = s.chan.keyIn.take len.toNat ++ s.chan.keyIn.drop len.toNat := fun hl => ⟨by simp; omega, by simp⟩
  have one : ∀ {x : Host.Outcome State Fault Refusal} {u : State}, x = .next u → x = .next t → u = t :=
    fun h1 h2 => by injection h1.symm.trans h2
  cases i with
  | create size =>
    rcases create_cases size s with rfl | hc | hc
    · obtain ⟨u, hu, hd⟩ := execCreate_zero s
      cases one hu h; exact .createZero rfl hd
    · obtain ⟨u, hu, hd⟩ := execCreate_capacity hc
      cases one hu h; exact .createCapacity _ rfl hc hd
    · obtain ⟨u, hu, hd⟩ := execCreate_ok hc
      cases one hu h; exact .createOk _ rfl hc hd
  | clear x =>
    cases hc : s.filter.constructed with
    | false => obtain ⟨u, hu, hd⟩ := execClear_none x hc; cases one hu h; exact .clearNone _ rfl hc hd
    | true => obtain ⟨u, hu, hd⟩ := execClear_ok x hc; cases one hu h; exact .clearOk _ rfl hc hd
  | add len =>
    by_cases hl : s.chan.keyIn.length < len.toNat
    · obtain ⟨u, hu, hd⟩ := startKey_waits finishAdd (.inl rfl) hl
      cases one hu h; exact .waits _ _ (.inl ⟨rfl, rfl⟩) hl hd
    · obtain ⟨a, b⟩ := key hl
      cases hc : s.filter.constructed with
      | false => obtain ⟨u, hu, hd⟩ := execAdd_none a b hc; cases one hu h; exact .keyNone _ (.inl rfl) hl hc hd
      | true =>
        by_cases hs : s.filter.size = 0#32
        · cases (execAdd_zero hl hc hs).symm.trans h
        · obtain ⟨u, hu, hd⟩ := execAdd_ok a b hc hs; cases one hu h; exact .addOk _ rfl hl hc hs hd
  | contains len =>
    by_cases hl : s.chan.keyIn.length < len.toNat
    · obtain ⟨u, hu, hd⟩ := startKey_waits finishContains (.inr rfl) hl
      cases one hu h; exact .waits _ _ (.inr ⟨rfl, rfl⟩) hl hd
    · obtain ⟨a, b⟩ := key hl
      cases hc : s.filter.constructed with
      | false => obtain ⟨u, hu, hd⟩ := execContains_none a b hc; cases one hu h; exact .keyNone _ (.inr rfl) hl hc hd
      | true =>
        by_cases hs : s.filter.size = 0#32
        · cases (execContains_zero hl hc hs).symm.trans h
        · obtain ⟨u, hu, hd⟩ := execContains_ok a b hc hs; cases one hu h; exact .containsOk _ rfl hl hc hs hd

end Sys2Proof.Machine
end

