-- ==== Sys2Proof/Laws/Encoding.lean ====
section
/-! SUPPORT. The fields of the words on the channels. -/

namespace Sys2Proof

/-- A bit of a command word: of its opcode or of its argument. -/
theorem getLsbD_word (o : BitVec 2) (a : Word) (i : Nat) :
    (o ++ a : CmdWord).getLsbD i = if i < 32 then a.getLsbD i else o.getLsbD (i - 32) := by
  show (o ++ a : BitVec (2 + 32)).getLsbD i = _
  rw [BitVec.getLsbD_append]

@[simp] theorem opField_append (o : BitVec 2) (a : Word) : opField (o ++ a) = o := by
  apply BitVec.eq_of_getLsbD_eq
  intro i hi
  rw [opField, BitVec.getLsbD_extractLsb', getLsbD_word, if_neg (by omega)]
  simp [hi]

@[simp] theorem argField_append (o : BitVec 2) (a : Word) : argField (o ++ a) = a := by
  apply BitVec.eq_of_getLsbD_eq
  intro i hi
  rw [argField, BitVec.getLsbD_extractLsb', getLsbD_word, if_pos (by omega)]
  simp [hi]

/-- A command word is its two fields. -/
theorem fields_append (w : CmdWord) : (opField w ++ argField w : CmdWord) = w := by
  apply BitVec.eq_of_getLsbD_eq
  intro i hi
  rw [getLsbD_word]
  simp only [opField, argField, BitVec.getLsbD_extractLsb']
  by_cases h : i < 32
  · simp [h]
  · have h2 : i - 32 < 2 := by omega
    have h3 : 32 + (i - 32) = i := by omega
    simp [h, h2, h3]

@[simp] theorem opField_encode (i : Instr) : opField (encode i) = i.op := opField_append _ _

@[simp] theorem argField_encode (i : Instr) : argField (encode i) = i.arg := argField_append _ _

end Sys2Proof
end

