-- ==== Sys2Proof/Laws/Step.lean ====
section
/-! SUPPORT. When the core does what: one lemma for each way a step can go. -/

namespace Sys2Proof.Machine

theorem nextAction_resetEdge {s : State} (h : s.chan.rst = true) : nextAction s = .resetEdge := by simp [nextAction, h]

theorem nextAction_handOver {s : State} {w : RspWord} {rest : List RspWord} (h : s.chan.rst = false)
    (hr : s.chan.rspOut = w :: rest) (hd : s.chan.rspReady = true) : nextAction s = .handOver w rest := by
  simp [nextAction, h, hr, hd]

theorem nextAction_hold {s : State} (h : s.chan.rst = false) (hr : s.chan.rspOut ≠ []) (hd : s.chan.rspReady = false) :
    nextAction s = .wait := by
  obtain ⟨w, rest, hw⟩ := List.exists_cons_of_ne_nil hr
  simp [nextAction, h, hw, hd]

theorem nextAction_resume {s : State} (h : s.chan.rst = false) (hr : s.chan.rspOut = []) (hp : s.inProgress = true) :
    nextAction s = .resume := by simp [nextAction, h, hr, hp]

theorem nextAction_accept {s : State} {w : CmdWord} {rest : List CmdWord} (h : Idle s) (hw : s.chan.cmdIn = w :: rest) :
    nextAction s = .accept w rest := by simp [nextAction, h.no_reset, h.no_command, h.no_response, hw]

theorem nextAction_idle {s : State} (h : Idle s) (hw : s.chan.cmdIn = []) : nextAction s = .wait := by
  simp [nextAction, h.no_reset, h.no_command, h.no_response, hw]

/-- The action of a state, with what it says of the state. -/
theorem nextAction_cases (s : State) :
    (nextAction s = .resetEdge ∧ s.chan.rst = true) ∨
    (∃ w rest, nextAction s = .handOver w rest ∧ s.chan.rst = false ∧ s.chan.rspOut = w :: rest ∧
      s.chan.rspReady = true) ∨
    (nextAction s = .wait ∧ s.chan.rst = false ∧
      ((s.chan.rspOut ≠ [] ∧ s.chan.rspReady = false) ∨ (Idle s ∧ s.chan.cmdIn = []))) ∨
    (nextAction s = .resume ∧ s.chan.rst = false ∧ s.chan.rspOut = [] ∧ s.inProgress = true) ∨
    (∃ w rest, nextAction s = .accept w rest ∧ Idle s ∧ s.chan.cmdIn = w :: rest) := by
  cases hrst : s.chan.rst with
  | true => exact .inl ⟨nextAction_resetEdge hrst, rfl⟩
  | false =>
    cases hr : s.chan.rspOut with
    | cons w rest =>
      cases hd : s.chan.rspReady with
      | true => exact .inr (.inl ⟨w, rest, nextAction_handOver hrst hr hd, rfl, rfl, rfl⟩)
      | false => exact .inr (.inr (.inl ⟨nextAction_hold hrst (by simp [hr]) hd, rfl, .inl ⟨by simp, rfl⟩⟩))
    | nil =>
      cases hp : s.inProgress with
      | true => exact .inr (.inr (.inr (.inl ⟨nextAction_resume hrst hr hp, rfl, rfl, rfl⟩)))
      | false =>
        have hi : Idle s := ⟨hrst, hp, hr⟩
        cases hw : s.chan.cmdIn with
        | nil => exact .inr (.inr (.inl ⟨nextAction_idle hi hw, rfl, .inr ⟨hi, rfl⟩⟩))
        | cons w rest => exact .inr (.inr (.inr (.inr ⟨w, rest, nextAction_accept hi hw, hi, rfl⟩)))

/-- A step does what its action says. -/
theorem step_eq (s : State) :
    step s = match nextAction s with
      | .resetEdge => .next (applyReset s)
      | .handOver w rest => .next (handOver w rest s)
      | .wait => .next s
      | .resume => resumeCommand s
      | .accept w rest => exec (decode w) (popCommand rest s) := rfl

/-- A command in progress satisfies the sequencer's preconditions (rules R28, R92). -/
theorem sequencerOk_of_progress {s : State} {taken : List Byte} (h : KeyProgress s taken) : sequencerOk s = true := by
  have hc : s.mm.cnt.toNat ≤ 3 := by rw [h.mm, murmurRegs_cnt]; omega
  have hi : s.seq.keyIdx.toNat ≤ s.seq.keyLen.toNat := by rw [h.idx]; exact h.len
  simp only [sequencerOk, Bool.and_eq_true, Bool.or_eq_true, beq_iff_eq, decide_eq_true_eq, BitVec.le_def]
  exact ⟨⟨h.op, by simpa using hc⟩, hi⟩

/-- A key command is ADD or CONTAINS, and the sequencer finishes it as its opcode says. -/
theorem finishInProgress_add {s : State} (h : s.seq.cmdOp = opAdd) : finishInProgress s = finishAdd s := by
  simp [finishInProgress, h]

theorem finishInProgress_contains {s : State} (h : s.seq.cmdOp = opContains) :
    finishInProgress s = finishContains s := by simp [finishInProgress, h, opAdd, opContains]

/-- The key phase finishes with the function its opcode selects. -/
theorem runKey_finishInProgress (s : State) :
    runKey finishInProgress s = if s.seq.cmdOp = opAdd then runKey finishAdd s else runKey finishContains s := by
  simp only [runKey, finishInProgress, endKey_seq, keyLoop_cmdOp]
  split <;> split <;> rfl

end Sys2Proof.Machine
end

