-- ==== Sys2Proof/Laws/Invariant.lean ====
section
/-! SUPPORT. The size invariant of rule R24 under the ways the filter state can change, and a command in progress. -/

namespace Sys2Proof.Machine

/-- A filter that exists has a cell (rule R24). -/
theorem FilterInv.size_ne {c : Config} {f : Filter} (h : FilterInv c f) (hc : f.constructed = true) :
    f.size ≠ 0#32 := by
  intro h0
  have := (h.size_range hc).1
  rw [h0] at this
  simp at this

theorem FilterInv.created {size : Word} {s : State} (h : createSucceeds size s) :
    FilterInv s.cfg { size := size, constructed := true, cells := [] } where
  size_range := fun _ => ⟨toNat_pos_of_ne_zero h.1, h.2⟩
  no_instance := by simp
  canonical := Memory.wf_nil
  in_array := by simp

theorem FilterInv.cleared {c : Config} {f : Filter} (h : FilterInv c f) : FilterInv c { f with cells := [] } where
  size_range := h.size_range
  no_instance := fun h' => ⟨(h.no_instance h').1, rfl⟩
  canonical := Memory.wf_nil
  in_array := by simp

theorem FilterInv.setThree {c : Config} {f : Filter} (h : FilterInv c f) {p1 p2 p3 : Word} (hc : f.constructed = true)
    (h1 : p1.toNat < f.size.toNat) (h2 : p2.toNat < f.size.toNat) (h3 : p3.toNat < f.size.toNat) :
    FilterInv c { f with cells := setThree f.cells p1 p2 p3 } where
  size_range := h.size_range
  no_instance := by simp [hc]
  canonical := wf_setThree h.canonical _ _ _
  in_array := by
    intro d hd
    rcases mem_setThree hd with h' | h' | h' | h'
    · exact h.in_array d h'
    all_goals simp only [h']; assumption

theorem FilterInv.withThree {c : Config} {f : Filter} (h : FilterInv c f) (hc : f.constructed = true) (a b : Word) :
    FilterInv c (withThree f a b) :=
  h.setThree hc (umod_lt _ (h.size_ne hc)) (umod_lt _ (h.size_ne hc)) (umod_lt _ (h.size_ne hc))

/-- Setting three cells a second time changes nothing (rule R117). -/
theorem setThree_setThree {m : Memory} (h : Memory.wf m) (p1 p2 p3 : Word) :
    Machine.setThree (Machine.setThree m p1 p2 p3) p1 p2 p3 = Machine.setThree m p1 p2 p3 := by
  have hw := wf_setThree h p1 p2 p3
  apply Memory.ext_read (wf_setThree hw _ _ _) hw
  intro j
  rw [read_setThree hw, read_setThree h]
  split <;> simp_all

/-- The ways in which a command in progress goes on: it runs dry again, or it is over (rules R132, R133, R175). -/
theorem resume_cases {s : State} {taken : List Byte} (hf : FilterInv s.cfg s.filter) (hp : KeyProgress s taken) :
    (taken.length + s.chan.keyIn.length < s.seq.keyLen.toNat ∧
      resumeCommand s = .next (keyLoop s.chan.keyIn s) ∧
      KeyProgress (keyLoop s.chan.keyIn s) (taken ++ s.chan.keyIn) ∧
      (keyLoop s.chan.keyIn s).chan = { s.chan with keyIn := [] }) ∨
    (∃ t f st res a b, resumeCommand s = .next t ∧
      Done s t f (s.chan.keyIn.drop (s.seq.keyLen.toNat - taken.length)) st res a b ∧
      (f = s.filter ∨ (s.filter.constructed = true ∧ f = Machine.withThree s.filter a b))) := by
  simp only [resumeCommand, sequencerOk_of_progress hp, if_true]
  by_cases hl : taken.length + s.chan.keyIn.length < s.seq.keyLen.toNat
  · exact .inl ⟨hl, runKey_waits hp finishInProgress hl⟩
  · right
    have hlen : taken.length + (s.chan.keyIn.take (s.seq.keyLen.toNat - taken.length)).length = s.seq.keyLen.toNat := by
      have := hp.len
      simp
      omega
    have hin : s.chan.keyIn = s.chan.keyIn.take (s.seq.keyLen.toNat - taken.length) ++
        s.chan.keyIn.drop (s.seq.keyLen.toNat - taken.length) := by simp
    rw [runKey_finishInProgress]
    cases hc : s.filter.constructed with
    | false =>
      rcases hp.op with ho | ho
      · rw [if_pos ho]
        obtain ⟨t, ht, hd⟩ := runAdd_none hp hin hlen hc
        exact ⟨t, _, _, _, _, _, ht, hd, .inl rfl⟩
      · rw [if_neg (by rw [ho]; decide)]
        obtain ⟨t, ht, hd⟩ := runContains_none hp hin hlen hc
        exact ⟨t, _, _, _, _, _, ht, hd, .inl rfl⟩
    | true =>
      rcases hp.op with ho | ho
      · rw [if_pos ho]
        obtain ⟨t, ht, hd⟩ := runAdd_ok hp hin hlen hc (hf.size_ne hc)
        exact ⟨t, _, _, _, _, _, ht, hd, .inr ⟨rfl, rfl⟩⟩
      · rw [if_neg (by rw [ho]; decide)]
        obtain ⟨t, ht, hd⟩ := runContains_ok hp hin hlen hc (hf.size_ne hc)
        exact ⟨t, _, _, _, _, _, ht, hd, .inl rfl⟩

end Sys2Proof.Machine
end

