-- ==== Sys2Proof/Laws/PerInstr.lean ====
section
/-! SUPPORT. One lemma per command: its word is an instance of its row of the opcode table and of no other row. -/

namespace Sys2Proof.Laws.TableRow

/-- The rows of the opcode table that a command's word is an instance of are exactly the row of its mnemonic. -/
def Statement (i : Instr) : Prop :=
  (opcodeTable.filter fun r => encode i &&& r.mask == r.pattern).map (·.mnemonic) = [i.mnemonic]

/-- The mask keeps the opcode alone (rule R63). -/
theorem masked (o : BitVec 2) (a : Word) : (o ++ a : CmdWord) &&& 0x300000000#34 = (o ++ 0#32 : CmdWord) := by
  apply BitVec.eq_of_getLsbD_eq
  intro i hi
  have hm : (0x300000000#34 : CmdWord) = (3#2 ++ 0#32 : CmdWord) := by decide
  rw [hm, BitVec.getLsbD_and, getLsbD_word, getLsbD_word, getLsbD_word]
  split
  · simp
  · have h2 : i - 32 < 2 := by omega
    have : (3#2 : BitVec 2) = BitVec.allOnes 2 := by decide
    rw [this, BitVec.getLsbD_allOnes]
    simp [h2]

theorem create (size : Word) : Statement (.create size) := by
  simp only [Statement, opcodeTable, encode, List.filter_cons, List.filter_nil, masked, Instr.op, opCreate, Instr.mnemonic]
  decide
theorem add (keyLen : Word) : Statement (.add keyLen) := by
  simp only [Statement, opcodeTable, encode, List.filter_cons, List.filter_nil, masked, Instr.op, opAdd, Instr.mnemonic]
  decide
theorem contains (keyLen : Word) : Statement (.contains keyLen) := by
  simp only [Statement, opcodeTable, encode, List.filter_cons, List.filter_nil, masked, Instr.op, opContains, Instr.mnemonic]
  decide
theorem clear (ignored : Word) : Statement (.clear ignored) := by
  simp only [Statement, opcodeTable, encode, List.filter_cons, List.filter_nil, masked, Instr.op, opClear, Instr.mnemonic]
  decide

end Sys2Proof.Laws.TableRow
end

