-- ==== Sys2Proof/Tests/Slice0.lean ====
section
/-! SUPPORT. The model's own tests. Every expected value is a row of 95_test_vectors.md or of the rule named. Then one
witness for each obligation that has hypotheses: concrete states and operands that meet all of them together. -/

namespace Sys2Proof.Tests

open Sys2Proof.Machine

/-! ### Helpers -/

/-- The key `bat`. -/
def bat : List Byte := [0x62#8, 0x61#8, 0x74#8]
/-- The key `rat`. -/
def rat : List Byte := [0x72#8, 0x61#8, 0x74#8]
/-- The key `cat`. -/
def cat : List Byte := [0x63#8, 0x61#8, 0x74#8]

/-- Cells holding 1. -/
def ones (cells : List Nat) : Memory := cells.map fun i => (i, 1#1)

/-- An idle core whose filter has `size` cells, those listed holding 1. -/
def holding (size : Word) (cells : List Nat) : State :=
  { State.reset with filter := { size := size, constructed := true, cells := ones cells } }

/-- The same on a device with `NMAX = 8`. -/
def smallHolding (cells : List Nat) : State :=
  { State.resetWith { nmax := 8#32 } with filter := { size := 8#32, constructed := true, cells := ones cells } }

/-- `s` with key bytes offered. -/
def offering (key : List Byte) (s : State) : State := (HostMove.offerKey key).apply s

/-- One step on the table word `w` leaves one response, the number `rsp`, and the filter state `f`, all key bytes
taken and no command in progress. -/
def answers (s : State) (w rsp : Nat) (f : Filter) : Bool :=
  match step (s.withFetchWord 40 w) with
  | .next t =>
    t.chan.rspOut == [BitVec.ofNat 67 rsp] && t.filter == f && t.chan.keyIn.isEmpty && t.chan.cmdIn.isEmpty &&
      !t.inProgress
  | .fault _ => false
  | .refused _ => false

/-- The outcome is a next state. -/
def isNext (x : Host.Outcome State Fault Refusal) : Bool :=
  match x with
  | .next _ => true
  | .fault _ => false
  | .refused _ => false

theorem isNext_elim {x : Host.Outcome State Fault Refusal} (h : isNext x = true) : ∃ t, x = .next t := by
  cases x with
  | next t => exact ⟨t, rfl⟩
  | fault r => cases h
  | refused r => cases h

/-! ### WellFormed: an ill-formed term for each check -/

theorem test_clear_with_argument_is_ill_formed : Instr.wellFormed (.clear 5#32) = false := by decide
theorem test_short_key_is_ill_formed : Transaction.wellFormed { instr := .add 3#32, key := [0x62#8] } = false := by decide
theorem test_key_after_create_is_ill_formed :
    Transaction.wellFormed { instr := .create 3#32, key := [0x62#8] } = false := by decide

/-! ### Decoding: words written out from rule R62 (`OP` in bits 33:32, `ARG` in bits 31:0) and section 2.6 -/

theorem test_decode_create : decode 0b0000000000000000000000000000010000#34 = .create 16#32 := by decide
theorem test_decode_add : decode 0b0100000000000000000000000000000011#34 = .add 3#32 := by decide
theorem test_decode_contains : decode 0b1000000000000000000000000000000100#34 = .contains 4#32 := by decide
theorem test_decode_clear : decode 0b1100010010001101000101011001111000#34 = .clear 0x12345678#32 := by decide
theorem test_decode_all_ones_argument : decode 0x0FFFFFFFF#34 = .create 0xFFFFFFFF#32 := by decide
theorem test_decode_refuses_wider_number :
    (match decodeNat 0x400000000 with
      | .ok _ => false
      | .error e => e == .widerThanCommandChannel) = true := by decide
theorem test_encode_words : encode (.create 16#32) = 0x000000010#34 ∧ encode (.add 3#32) = 0x100000003#34 ∧
    encode (.contains 4#32) = 0x200000004#34 ∧ encode (.clear 0#32) = 0x300000000#34 := by decide

/-! ### The primitives (section 2.0) and the hash functions (sections 2.1 to 2.3) -/

theorem test_arithmetic : mul32 0x12345678#32 0xCC9E2D51#32 = 0xF3D273F8#32 ∧
    add32 0x7B1AC72A#32 0xACF3F018#32 = 0x280EB742#32 ∧ shr32 0xDEADBEEF#32 13 = 0x0006F56D#32 ∧
    rotl32 0x12345678#32 15 = 0x2B3C091A#32 ∧ rotl32 0x12345678#32 13 = 0x8ACF0246#32 ∧
    umod32 0xDEADBEEF#32 1000#32 = some 559#32 ∧ umod32 0xFFFFFFFF#32 7#32 = some 3#32 := by decide
theorem test_fnv_hash : fnvHash bat = 0x7B1AC72A#32 ∧ fnvHash [] = 0x811C9DC5#32 ∧
    fnvHash [0x80#8, 0xFF#8] = 0x7207C402#32 ∧ fnvHash [0#8] = 0xA922CD79#32 := by decide
theorem test_fnv_absorbs_32_bit_symbols : (fnvAbsorb 0x0001F600#32 (fnvInit State.reset)).fnvAcc = 0xA9233B79#32 ∧
    (fnvAbsorb 0xFFFFFFFF#32 (fnvInit State.reset)).fnvAcc = 0x56DD3286#32 := by decide
theorem test_chunk_words : chunkWords bat = [0x62617400#32] ∧
    chunkWords [0x61#8, 0x62#8, 0x63#8, 0x64#8, 0x65#8] = [0x61626364#32, 0x65000000#32] := by decide
theorem test_murmur_mix : mmMix 2#32 0x62617400#32 = 0xCE42A503#32 ∧ mmMix 2#32 0#32 = 0xE655AB64#32 := by decide
theorem test_murmur_hash : murmurHash3 bat = 0x5679F80C#32 ∧ murmurHash3 [] = 0x30F4C306#32 ∧
    murmurHash3 [0x61#8, 0x62#8, 0x63#8, 0x64#8, 0x65#8] = 0x7A6447F5#32 ∧
    murmurHash3 [0x80#8, 0xFF#8] = 0xA6A05EA6#32 := by decide
theorem test_murmur_length : murmurHash3 [0#8] = 0x5BE1E2DC#32 ∧ murmurHash3 [0#8, 0#8] = 0x6231B378#32 := by decide
theorem test_positions : positions bat 10#32 = some (0#32, 2#32, 8#32) := by decide
theorem test_positions_of_rat : positions rat 16#32 = some (10#32, 4#32, 2#32) := by decide

/-! ### The bit array (section 2.4) -/

theorem test_set_three_equal_positions :
    (baSet3 4#32 8#32 4#32 (holding 16#32 [2, 10, 12])).map (·.filter.cells) = some (ones [2, 4, 8, 10, 12]) := by decide
theorem test_test_three : baTest3 10#32 4#32 2#32 (holding 16#32 [2, 10, 12]) = some 0b101#3 ∧ baHit 0b101#3 = 0#1 ∧
    baTest3 2#32 2#32 3#32 (holding 16#32 [2, 10, 12]) = some 0b011#3 ∧ baHit 0b111#3 = 1#1 := by decide
theorem test_no_cell_above_size : cellRead 15#32 (holding 16#32 [2]) = some 0#1 ∧
    cellRead 16#32 (holding 16#32 [2]) = none ∧ baSet3 16#32 0#32 0#32 (holding 16#32 [2]) = none := by decide

/-! ### The commands, one step each (sections 2.5, 3.1, 3.2, 3.4) -/

theorem test_create :
    answers State.reset 0x000000010 0 { size := 16#32, constructed := true, cells := [] } = true := by decide
theorem test_create_refused : answers (smallHolding [2, 4]) 0x000000000 0x20000000000000000 (smallHolding [2, 4]).filter = true ∧
    answers (smallHolding [2, 4]) 0x000000009 0x60000000000000000 (smallHolding [2, 4]).filter = true := by decide
theorem test_add : answers (offering rat (holding 16#32 [2, 10, 12])) 0x100000003 0x07B1A8DFABE1E14C4
    (holding 16#32 [2, 4, 10, 12]).filter = true := by decide
theorem test_contains_one_zero_cell : answers (offering [0x61#8] (holding 10#32 [1, 7, 8])) 0x200000001 0x0A922CD1845BC44F1
    (holding 10#32 [1, 7, 8]).filter = true := by decide
theorem test_clear_ignores_its_argument : answers (smallHolding [2, 4]) 0x312345678 0 (smallHolding []).filter = true := by
  decide
theorem test_not_constructed : answers State.reset 0x300000000 0x40000000000000000 State.reset.filter = true ∧
    answers (offering bat State.reset) 0x100000003 0x47B1AC72A5679F80C State.reset.filter = true := by decide

/-! ### The machine (70_reset_and_hazards.md) -/

/-- Rule R175: two of three bytes offered; the command has taken both and waits. -/
theorem test_add_waits_for_its_last_byte :
    (match step ((offering [0x62#8, 0x61#8] (holding 16#32 [])).withFetchWord 40 0x100000003) with
      | .next t => t.inProgress && t.seq.keyIdx == 2#32 && t.chan.keyIn.isEmpty && t.chan.rspOut.isEmpty &&
          keyReady t && !cmdReady t
      | .fault _ => false
      | .refused _ => false) = true := by decide
/-- Program P1, step 5, with a surplus byte offered: it stays on the key channel (rule R175). -/
theorem test_contains_leaves_the_surplus_byte :
    (match step ((offering (bat ++ [0x63#8]) (holding 16#32 [2, 4, 8, 10, 12])).withFetchWord 40 0x200000003) with
      | .next t => t.chan.keyIn == [0x63#8] && t.chan.rspOut == [0x17B1AC72A5679F80C#67]
      | .fault _ => false
      | .refused _ => false) = true := by decide
/-- Rules R170, R171 and R172: an edge with `rst = 1` destroys the filter and withdraws the response. -/
theorem test_reset_edge :
    (match step { holding 16#32 [2] with chan := { State.reset.chan with rst := true, rspOut := [0#67] } } with
      | .next t => t.filter == State.reset.filter && t.chan.rspOut.isEmpty && !t.inProgress
      | .fault _ => false
      | .refused _ => false) = true := by decide

/-! ### The text form (rule R70) -/

theorem test_parse_add_text :
    parseLine ("ADD ".toList ++ [quoteChar] ++ "bat".toList ++ [quoteChar] ++ " -> OK".toList) =
      some (.add bat, some { status := .ok, result := none, h1 := none, h2 := none }) := by decide
theorem test_parse_contains_hex :
    parseLine ("CONTAINS x".toList ++ [quoteChar] ++ "80fF".toList ++ [quoteChar] ++ " -> OK RESULT=1 H1=0x7207C402".toList) =
      some (.contains [0x80#8, 0xFF#8],
        some { status := .ok, result := some 1#1, h1 := some 0x7207C402#32, h2 := none }) := by decide
theorem test_parse_create : parseLine "CREATE 4294967295".toList = some (.create 0xFFFFFFFF#32, none) ∧
    parseLine "CREATE 4294967296".toList = none ∧ parseLine ".reset".toList = some (.reset, none) ∧
    parseLine "CLEAR -> NOT_CONSTRUCTED".toList =
      some (.clear, some { status := .notConstructed, result := none, h1 := none, h2 := none }) := by decide

theorem test_expected_response :
    Expected.holds { status := .ok, result := some 1#1, h1 := some 0x7B1AC72A#32, h2 := none } 0x17B1AC72A5679F80C#67 = true ∧
    Expected.holds { status := .ok, result := none, h1 := none, h2 := none } 0x40000000000000000#67 = false := by decide

/-! ### The states of the witnesses -/

theorem holding_inv (size : Word) (cells : List Nat) (h1 : 1 ≤ size.toNat) (hw : Memory.wf (ones cells))
    (hc : ∀ c ∈ ones cells, c.1 < size.toNat) : Inv (holding size cells) where
  legal := by simp [holding, State.reset, State.resetWith, Config.full]
  filter := by
    refine ⟨fun _ => ⟨h1, ?_⟩, by simp [holding], hw, hc⟩
    have h := size.isLt
    have hn : (holding size cells).cfg.nmax.toNat = 2 ^ 32 - 1 := by simp [holding, State.reset, State.resetWith, Config.full]
    rw [hn]
    show size.toNat ≤ 2 ^ 32 - 1
    omega
  count := by simp [holding, State.reset, State.resetWith]
  one_response := by simp [holding, State.reset, State.resetWith]
  progress := by simp [holding, State.reset, State.resetWith]

theorem holding16_inv : Inv (holding 16#32 [2, 10, 12]) := holding_inv _ _ (by decide) (by decide) (by decide)
theorem holding1_inv : Inv (holding 1#32 []) := holding_inv _ _ (by decide) (by decide) (by decide)

theorem offering_inv {s : State} (h : Inv s) (key : List Byte) : Inv (offering key s) where
  legal := h.legal
  filter := h.filter
  count := h.count
  one_response := h.one_response
  progress := fun hp => by
    obtain ⟨hr, taken, hk⟩ := h.progress hp
    exact ⟨hr, taken, hk.setChan _⟩

/-- An ADD of three bytes that has taken one and waits. -/
def waiting : State := takeByte 0x62#8 (startKey opAdd 3#32 (holding 16#32 [2, 10, 12]))

theorem waiting_progress : KeyProgress waiting [0x62#8] :=
  takeByte_progress (startKey_progress (.inl rfl) 3#32 (holding 16#32 [2, 10, 12])) 0x62#8 (by decide)

theorem waiting_inv : Inv waiting where
  legal := by decide
  filter := by simpa [waiting] using holding16_inv.filter
  count := by have := waiting_progress.count_le; omega
  one_response := by decide
  progress := fun _ => ⟨by decide, _, waiting_progress⟩

/-- A state with a response pending and the next command word offered. -/
def pending : State :=
  { holding 16#32 [2, 10, 12] with
    chan := { State.reset.chan with rspOut := [0x17B1AC72A5679F80C#67], cmdIn := [0x300000000#34] } }

theorem pending_inv : Inv pending where
  legal := by decide
  filter := holding16_inv.filter
  count := by decide
  one_response := by decide
  progress := by simp [pending, holding, State.reset, State.resetWith]

/-- An idle core with a command word offered. -/
def offered (w : CmdWord) (s : State) : State := (HostMove.offerCommand w).apply s

theorem offered_inv {s : State} (h : Inv s) (w : CmdWord) : Inv (offered w s) where
  legal := h.legal
  filter := h.filter
  count := h.count
  one_response := h.one_response
  progress := fun hp => by
    obtain ⟨hr, taken, hk⟩ := h.progress hp
    exact ⟨hr, taken, hk.setChan _⟩

/-- A core with `rst` raised while a response is pending. -/
def resetRaised : State := (HostMove.driveRst true).apply pending

/-! ### One witness for each obligation with hypotheses -/

theorem witness_PrimitivesWrapModuloTwoPow32 : (0 < 1 ∧ 1 < 32) ∧ 0 < 31 ∧ 31 < 32 := by decide

theorem witness_RotationReentersAtBitZero : (0 < 1 ∧ 1 < 32) ∧ 0 < 31 ∧ 31 < 32 := by decide

theorem witness_RemainderIsBelowItsDivisor :
    (1#32 : Word) ≠ 0#32 ∧ (0xFFFFFFFF#32 : Word) ≠ 0#32 ∧ (5#32 : Word).toNat < (7#32 : Word).toNat ∧
    (0x80000000#32 : Word).toNat = 2 ^ 31 ∧ (1#32 : Word).toNat = 2 ^ 0 := by decide

theorem witness_OpcodeFieldSelectsTheCommand : (⟨"CLEAR", 0x300000000#34, 0x300000000#34⟩ : OpcodeRow) ∈ opcodeTable := by
  decide

theorem witness_AssembledLinesAreWellFormed :
    (Line.create 0#32).transaction = some { instr := .create 0#32, key := [] } ∧
    (Line.add bat).transaction = some { instr := .add 3#32, key := bat } ∧
    (Line.contains []).transaction = some { instr := .contains 0#32, key := [] } ∧
    Line.clear.transaction = some { instr := .clear 0#32, key := [] } := by decide

theorem witness_MurmurUnitWritesItsRegisters :
    State.reset.mm.cnt.toNat ≤ 3 ∧ (1 ≤ waiting.mm.cnt.toNat ∧ waiting.mm.cnt.toNat ≤ 4) ∧
    (State.reset.setMm { hash := 2#32, k := 0#32, cnt := 3#3 }).mm.cnt.toNat ≤ 3 ∧
    1 ≤ (State.reset.setMm { hash := 2#32, k := 0#32, cnt := 4#3 }).mm.cnt.toNat ∧
    (State.reset.setMm { hash := 2#32, k := 0#32, cnt := 4#3 }).mm.cnt.toNat ≤ 4 := by decide

theorem witness_ChunkFillsFromTheTop : State.reset.mm.k = 0#32 ∧ State.reset.mm.cnt = 0#3 := by decide

theorem witness_ChunkWordsCutTheKey :
    (chunkWords [0x61#8, 0x62#8, 0x63#8, 0x64#8, 0x65#8])[1]? = some 0x65000000#32 := by decide

theorem witness_LengthAloneTellsZeroPaddedKeysApart : ([0#8] : List Byte).length % 4 ≠ 0 := by decide

theorem witness_KeyPhaseComputesBothHashes : (opAdd = opAdd ∨ opAdd = opContains) ∧
    (opContains = opAdd ∨ opContains = opContains) ∧ bat.length = (3#32 : Word).toNat ∧
    (offering (bat ++ [0#8]) State.reset).chan.keyIn = bat ++ [0#8] ∧ ([] : List Byte).length = (0#32 : Word).toNat := by
  decide

theorem witness_IndexerReducesThreeHashes :
    (holding 1#32 []).filter.size ≠ 0#32 ∧ (holding 0xFFFFFFFF#32 []).filter.size ≠ 0#32 := by decide

theorem witness_PositionsAreCellsOfTheKey : (holding 16#32 []).filter.constructed = true ∧
    ∃ t, idxDerive (fnvHash bat) (murmurHash3 bat) (holding 16#32 []) = some t :=
  ⟨by decide, _, idxDerive_eq _ _ (by decide)⟩

theorem witness_CellPrimitivesTouchOneCell :
    FilterInv (holding 16#32 [2, 10, 12]).cfg (holding 16#32 [2, 10, 12]).filter ∧
    cellExists 0#32 (holding 16#32 [2, 10, 12]) = true ∧ cellExists 15#32 (holding 16#32 [2, 10, 12]) = true :=
  ⟨holding16_inv.filter, by decide, by decide⟩

theorem witness_TestThreeIsTheAnd : cellExists 10#32 (holding 16#32 [2, 10, 12]) = true ∧
    cellExists 15#32 (holding 16#32 [2, 10, 12]) = true ∧ cellExists 0#32 (holding 16#32 [2, 10, 12]) = true := by decide

theorem witness_SetThreeSetsExactlyItsCells :
    FilterInv (holding 1#32 []).cfg (holding 1#32 []).filter ∧ cellExists 0#32 (holding 1#32 []) = true :=
  ⟨holding1_inv.filter, by decide⟩

theorem witness_ClearAllZeroesEveryCellBelow : 15 < (16#32 : Word).toNat := by decide

theorem witness_CreateConstructsOrRefuses :
    (smallHolding []).cfg.nmax.toNat < (9#32 : Word).toNat ∧
    ((1#32 : Word) ≠ 0#32 ∧ (1#32 : Word).toNat ≤ (smallHolding []).cfg.nmax.toNat) ∧
    (8#32 : Word) ≠ 0#32 ∧ (8#32 : Word).toNat ≤ (smallHolding []).cfg.nmax.toNat := by decide

/-- With a filter, and with none. -/
theorem witness_AddSetsTheCellsOfItsKey :
    (FilterInv (offering bat (holding 16#32 [2, 10, 12])).cfg (offering bat (holding 16#32 [2, 10, 12])).filter ∧
      (offering bat (holding 16#32 [2, 10, 12])).filter.constructed = true ∧ bat.length = (3#32 : Word).toNat ∧
      (offering bat (holding 16#32 [2, 10, 12])).chan.keyIn = bat ++ []) ∧
    FilterInv (offering bat State.reset).cfg (offering bat State.reset).filter ∧
    (offering bat State.reset).filter.constructed = false ∧ (offering bat State.reset).chan.keyIn = bat ++ [] :=
  ⟨⟨(offering_inv holding16_inv bat).filter, by decide, by decide, by decide⟩,
    ⟨by decide, by decide, by decide, by decide⟩, by decide, by decide⟩

/-- With a filter of one cell, and with none and an empty key. -/
theorem witness_ContainsAnswersTheAndOfItsCells :
    (FilterInv (offering rat (holding 1#32 [])).cfg (offering rat (holding 1#32 [])).filter ∧
      (offering rat (holding 1#32 [])).filter.constructed = true ∧ rat.length = (3#32 : Word).toNat ∧
      (offering rat (holding 1#32 [])).chan.keyIn = rat ++ []) ∧
    FilterInv State.reset.cfg State.reset.filter ∧ State.reset.filter.constructed = false ∧
    ([] : List Byte).length = (0#32 : Word).toNat ∧ State.reset.chan.keyIn = [] ++ [] :=
  ⟨⟨(offering_inv holding1_inv rat).filter, by decide, by decide, by decide⟩,
    ⟨by decide, by decide, by decide, by decide⟩, by decide, by decide, by decide⟩

theorem witness_ClearZeroesEveryCell : (holding 16#32 [2, 10, 12]).filter.constructed = true ∧
    State.reset.filter.constructed = false := by decide

/-- One witness for each error status and for `OK`. -/
theorem witness_ErrorStatusesAreExact :
    (∃ t, exec (.create 0#32) State.reset = .next t ∧ Answered State.reset t .invalidArgument 0#1 0#32 0#32) ∧
    (∃ t, exec (.create 9#32) (smallHolding []) = .next t ∧ Answered (smallHolding []) t .capacity 0#1 0#32 0#32) ∧
    (∃ t, exec (.clear 0#32) State.reset = .next t ∧ Answered State.reset t .notConstructed 0#1 0#32 0#32) ∧
    (∃ t, exec (.add 3#32) (offering bat State.reset) = .next t ∧
      Answered (offering bat State.reset) t .notConstructed 0#1 (fnvHash bat) (murmurHash3 bat)) ∧
    (∃ t, exec (.clear 0#32) (holding 1#32 []) = .next t ∧ Answered (holding 1#32 []) t .ok 0#1 0#32 0#32) := by
  obtain ⟨a, ha, hda⟩ := execCreate_zero State.reset
  obtain ⟨b, hb, hdb⟩ := execCreate_capacity (size := 9#32) (s := smallHolding []) (by decide)
  obtain ⟨c, hc, hdc⟩ := execClear_none 0#32 (s := State.reset) rfl
  obtain ⟨d, hd, hdd⟩ := execAdd_none (s := offering bat State.reset) (len := 3#32) (key := bat) (rest := []) rfl rfl rfl
  obtain ⟨e, he, hde⟩ := execClear_ok 0#32 (s := holding 1#32 []) rfl
  exact ⟨⟨a, ha, hda.answered⟩, ⟨b, hb, hdb.answered⟩, ⟨c, hc, hdc.answered⟩, ⟨d, hd, hdd.answered⟩, e, he, hde.answered⟩

theorem witness_KeyCommandWaitsForItsBytes :
    (Instr.add 3#32 = .add 3#32 ∨ Instr.add 3#32 = .contains 3#32) ∧
    (offering [0x62#8] (holding 16#32 [])).chan.keyIn.length < (3#32 : Word).toNat ∧
    (offering [0x62#8] (holding 16#32 [])).chan.rst = false ∧ (offering [0x62#8] (holding 16#32 [])).chan.rspOut = [] := by
  decide

theorem witness_LateKeyBytesChangeNothing :
    (Instr.contains 3#32 = .add 3#32 ∨ Instr.contains 3#32 = .contains 3#32) ∧
    (offering [0x62#8] (holding 16#32 [])).chan.rst = false ∧ (offering [0x62#8] (holding 16#32 [])).chan.rspOut = [] ∧
    (offering [0x62#8] (holding 16#32 [])).chan.keyIn = [0x62#8] ∧ ([0x62#8] : List Byte).length < (3#32 : Word).toNat ∧
    ∃ t, exec (.contains 3#32) (offering [0x62#8] (holding 16#32 [])) = .next t :=
  ⟨by decide, by decide, by decide, by decide, by decide, isNext_elim (by decide)⟩

/-- One witness for a command that is over and one for a command that waits. -/
theorem witness_EveryCommandKeepsItsFrame :
    (∃ t, exec (.add 3#32) (offering bat (holding 16#32 [])) = .next t ∧ t.inProgress = false) ∧
    ∃ t, exec (.add 3#32) (holding 16#32 []) = .next t ∧ t.inProgress = true := by
  obtain ⟨a, ha, hda⟩ := execAdd_ok (s := offering bat (holding 16#32 [])) (len := 3#32) (key := bat) (rest := []) rfl rfl
    rfl (by decide)
  obtain ⟨b, hb, hdb⟩ := startKey_waits finishAdd (s := holding 16#32 []) (len := 3#32) (op := opAdd) (.inl rfl) (by decide)
  exact ⟨⟨a, ha, hda.finished⟩, b, hb, hdb.inProgress⟩

theorem witness_WorkingRegistersCarryNothing : State.reset ≠ State.reset.setFnvAcc 5#32 ∧
    view State.reset = view (State.reset.setFnvAcc 5#32) := by decide

theorem witness_StepRunsTheDecodedCommand : Idle (offered 0x100000003#34 (holding 16#32 [])) ∧
    (offered 0x100000003#34 (holding 16#32 [])).chan.cmdIn = [0x100000003#34] :=
  ⟨⟨by decide, by decide, by decide⟩, by decide⟩

theorem witness_ResetEdgeAbandonsEverything : resetRaised.chan.rst = true ∧ resetRaised.chan.rspOut ≠ [] := by decide

/-- Both sides of each clause: an idle core, a waiting key command, a pending response. -/
theorem witness_ReadyOutputsFollowTheSequencer : Inv waiting ∧ Inv pending ∧ Inv (holding 1#32 []) ∧
    keyReady waiting = true ∧ cmdReady waiting = false ∧ rspValid pending = true ∧ cmdReady (holding 1#32 []) = true :=
  ⟨waiting_inv, pending_inv, holding1_inv, by decide, by decide, by decide, by decide⟩

/-- A transfer on each of the three channels. -/
theorem witness_EdgesMoveOneWordPerTransfer :
    (Inv (offered 0x100000003#34 (holding 1#32 [])) ∧ (offered 0x100000003#34 (holding 1#32 [])).chan.rst = false ∧
      cmdTransfer (offered 0x100000003#34 (holding 1#32 [])) = true ∧
      ∃ t, edge (offered 0x100000003#34 (holding 1#32 [])) = .next t) ∧
    (Inv (offering [0x61#8] waiting) ∧ (offering [0x61#8] waiting).chan.rst = false ∧
      keyTransfer (offering [0x61#8] waiting) = true ∧ ∃ t, edge (offering [0x61#8] waiting) = .next t) ∧
    Inv pending ∧ pending.chan.rst = false ∧ rspTransfer pending = true ∧ ∃ t, edge pending = .next t :=
  ⟨⟨offered_inv holding1_inv _, by decide, by decide, isNext_elim (by decide)⟩,
    ⟨offering_inv waiting_inv _, by decide, by decide, isNext_elim (by decide)⟩,
    pending_inv, by decide, by decide, isNext_elim (by decide)⟩

theorem witness_ResponseIsHeldUntilTaken :
    (pending.chan.rst = false ∧ pending.chan.rspOut = [0x17B1AC72A5679F80C#67] ∧ pending.chan.rspReady = true) ∧
    ((HostMove.driveRspReady false).apply pending).chan.rst = false ∧
    ((HostMove.driveRspReady false).apply pending).chan.rspOut = [0x17B1AC72A5679F80C#67] ∧
    ((HostMove.driveRspReady false).apply pending).chan.rspReady = false := by decide

theorem witness_ResponsesComeInCommandOrder : pending.chan.rst = false ∧ ∃ t, step pending = .next t :=
  ⟨by decide, isNext_elim (by decide)⟩

theorem witness_ResetStateMeetsTheInvariant : Config.full.Legal ∧ Config.Legal { nmax := 1#32 } := by decide

theorem witness_EveryStepKeepsTheInvariant : (Inv pending ∧ ∃ t, step pending = .next t) ∧
    Inv (offering [0x61#8, 0x74#8] waiting) ∧ ∃ t, step (offering [0x61#8, 0x74#8] waiting) = .next t :=
  ⟨⟨pending_inv, isNext_elim (by decide)⟩, offering_inv waiting_inv _, isNext_elim (by decide)⟩

theorem witness_EveryEdgeKeepsTheInvariant : Inv waiting ∧ ∃ t, edge waiting = .next t :=
  ⟨waiting_inv, isNext_elim (by decide)⟩

theorem witness_HostMovesTouchOnlyTheirChannel : Inv waiting := waiting_inv

theorem witness_NothingStopsTheMachine : Inv waiting ∧ Inv pending ∧ Inv (holding 1#32 []) :=
  ⟨waiting_inv, pending_inv, holding1_inv⟩

theorem witness_CellsOnlyRise : Inv pending ∧ (∃ t, step pending = .next t) ∧ cellRead 10#32 pending = some 1#1 :=
  ⟨pending_inv, isNext_elim (by decide), by decide⟩

theorem witness_OnlyCreateWritesSizeAndConstructed :
    ∃ t, step (offered 0x000000010#34 State.reset) = .next t := isNext_elim (by decide)

theorem witness_NoFalseNegatives :
    Inv (holding 16#32 [2, 10, 12]) ∧ (holding 16#32 [2, 10, 12]).inProgress = false ∧
    (holding 16#32 [2, 10, 12]).chan.keyIn = [] ∧ (holding 16#32 [2, 10, 12]).filter.constructed = true ∧
    rat.length = (3#32 : Word).toNat ∧
    (∀ c ∈ [{ instr := .contains 3#32, key := cat }, { instr := .create 0#32, key := [] }],
      Transaction.wellFormed c = true ∧ ¬ zeroesCells c.instr (holding 16#32 [2, 10, 12])) ∧
    ∃ t u, transact { instr := .add 3#32, key := rat } (holding 16#32 [2, 10, 12]) = .next t ∧
      transactAll [{ instr := .contains 3#32, key := cat }, { instr := .create 0#32, key := [] }] t = .next u := by
  refine ⟨holding16_inv, by decide, by decide, by decide, by decide, ?_, ?_⟩
  · simp only [List.forall_mem_cons, zeroesCells, createSucceeds, List.not_mem_nil, false_implies, implies_true]
    decide
  · obtain ⟨t, ht, hd⟩ := execAdd_ok (s := offering rat (holding 16#32 [2, 10, 12])) (len := 3#32) (key := rat)
      (rest := []) rfl rfl rfl (by decide)
    obtain ⟨v, hv, -⟩ := execContains_ok (s := offering cat t) (len := 3#32) (key := cat) (rest := []) rfl
      (by simp [offering, HostMove.apply, hd.chan]) (by simp [offering, HostMove.apply, hd.filter, withThree]; decide)
      (by simp [offering, HostMove.apply, hd.filter, withThree]; decide)
    obtain ⟨u, hu, -⟩ := execCreate_zero (offering [] v)
    have e1 : transact { instr := .contains 3#32, key := cat } t = .next v := hv
    have e2 : transact { instr := .create 0#32, key := [] } v = .next u := hu
    exact ⟨t, u, ht, by simp only [transactAll, e1, e2]⟩

theorem witness_AddIsIdempotent : FilterInv (holding 1#32 []).cfg (holding 1#32 []).filter ∧
    (holding 1#32 []).chan.keyIn = [] ∧ bat.length = (3#32 : Word).toNat ∧
    ∃ t u, transact { instr := .add 3#32, key := bat } (holding 1#32 []) = .next t ∧
      transact { instr := .add 3#32, key := bat } t = .next u := by
  refine ⟨holding1_inv.filter, by decide, by decide, ?_⟩
  obtain ⟨t, ht, hd⟩ := execAdd_ok (s := offering bat (holding 1#32 [])) (len := 3#32) (key := bat) (rest := []) rfl rfl
    rfl (by decide)
  obtain ⟨u, hu, -⟩ := execAdd_ok (s := offering bat t) (len := 3#32) (key := bat) (rest := []) rfl
    (by simp [offering, HostMove.apply, hd.chan]) (by simp [offering, HostMove.apply, hd.filter, withThree]; decide)
    (by simp [offering, HostMove.apply, hd.filter, withThree]; decide)
  exact ⟨t, u, ht, hu⟩

theorem witness_ClearedFilterContainsNothing :
    FilterInv (holding 16#32 [2, 10, 12]).cfg (holding 16#32 [2, 10, 12]).filter ∧
    (holding 16#32 [2, 10, 12]).filter.constructed = true ∧ (holding 16#32 [2, 10, 12]).chan.keyIn = [] ∧
    (∃ t, exec (.clear 0#32) (holding 16#32 [2, 10, 12]) = .next t) ∧ bat.length = (3#32 : Word).toNat :=
  ⟨holding16_inv.filter, by decide, by decide, ⟨_, rfl⟩, by decide⟩

theorem witness_OneCellFilterContainsEverything : FilterInv (holding 1#32 []).cfg (holding 1#32 []).filter ∧
    (holding 1#32 []).filter.constructed = true ∧ (holding 1#32 []).filter.size = 1#32 ∧
    (holding 1#32 []).chan.keyIn = [] ∧ bat.length = (3#32 : Word).toNat ∧ cat.length = (3#32 : Word).toNat ∧
    ∃ t, transact { instr := .add 3#32, key := bat } (holding 1#32 []) = .next t :=
  ⟨holding1_inv.filter, by decide, by decide, by decide, by decide, by decide, isNext_elim (by decide)⟩

/-- Two different keys with the same positions: in a filter of one cell all keys have (0, 0, 0). -/
theorem witness_KeysOfEqualPositionsAreIndistinguishable : FilterInv (holding 1#32 []).cfg (holding 1#32 []).filter ∧
    (holding 1#32 []).filter.constructed = true ∧ (holding 1#32 []).chan.keyIn = [] ∧
    bat.length = (3#32 : Word).toNat ∧ rat.length = (3#32 : Word).toNat ∧ bat ≠ rat ∧
    positions bat (holding 1#32 []).filter.size = positions rat (holding 1#32 []).filter.size ∧
    (∃ t, transact { instr := .add 3#32, key := bat } (holding 1#32 []) = .next t) ∧
    ∃ u, transact { instr := .add 3#32, key := rat } (holding 1#32 []) = .next u :=
  ⟨holding1_inv.filter, by decide, by decide, by decide, by decide, by decide, by decide, isNext_elim (by decide),
    isNext_elim (by decide)⟩

theorem witness_EveryCommandSequenceCompletes : Inv State.reset ∧ Idle State.reset ∧ State.reset.chan.rspReady = true ∧
    State.reset.chan.cmdIn = [] ∧ State.reset.chan.keyIn = [] ∧
    ∀ t ∈ [{ instr := .create 16#32, key := [] }, { instr := .add 3#32, key := bat }, { instr := .clear 0#32, key := [] }],
      Transaction.wellFormed t = true :=
  ⟨{ legal := by decide, filter := ⟨by decide, by decide, by decide, by decide⟩, count := by decide,
     one_response := by decide, progress := fun h => by cases h },
    ⟨by decide, by decide, by decide⟩, by decide, by decide, by decide, by decide⟩

end Sys2Proof.Tests
end

-- ==== The scope family (00_scope.md): arithmetic primitives and the reset state ====
section
/-! The obligations of 00_scope.md. Each primitive is first said in Lean's bit-vector operations (`mul32_eq`,
`rotl32_eq`, ...); what the rules say of numbers and bits is then read off the library. -/

namespace Sys2Proof.Machine

/-- Rule R11 on numbers: the left shift modulo 2^32, joined with the bits shifted out. -/
theorem rotl32_toNat (a : Word) {r : Nat} (hr : r < 32) :
    (rotl32 a r).toNat = (a.toNat * 2 ^ r) % 2 ^ 32 ||| a.toNat / 2 ^ (32 - r) := by
  rw [rotl32_eq a hr, BitVec.toNat_rotateLeft, Nat.mod_eq_of_lt hr, Nat.shiftLeft_eq, Nat.shiftRight_eq_div_pow]

/-- Rule R11 on bits: those that leave at bit 31 re-enter at bit 0. -/
theorem rotl32_getLsbD (a : Word) {r i : Nat} (hr : r < 32) (hi : i < 32) :
    (rotl32 a r).getLsbD ((i + r) % 32) = a.getLsbD i := by
  rw [rotl32_eq a hr, BitVec.getLsbD_rotateLeft_of_le hr]
  by_cases hw : i + r < 32
  case pos =>
    have hge : ¬ i + r < r := by omega
    simp [Nat.mod_eq_of_lt hw, hge, hw]
  case neg =>
    have hmod : (i + r) % 32 = i + r - 32 := by omega
    have hlt : i + r - 32 < r := by omega
    have hback : 32 - r + (i + r - 32) = i := by omega
    simp [hmod, hlt, hback]

/-- Settles O2: the number is `rotl32_toNat`, the movement of each bit `rotl32_getLsbD`. -/
theorem rotationReentersAtBitZero : Obligations.RotationReentersAtBitZero := by
  intro a r _ hr
  exact ⟨rotl32_toNat a hr, fun i hi => rotl32_getLsbD a hr hi, by decide⟩

/-- Rule R12's corner case of a power of two: the remainder is the low `j` bits. -/
theorem umod_getLsbD_of_two_pow (a : Word) {n : Word} {j : Nat} (hn : n.toNat = 2 ^ j) (i : Nat) :
    (a % n).getLsbD i = (decide (i < j) && a.getLsbD i) := by
  rw [← BitVec.testBit_toNat, BitVec.toNat_umod, hn, Nat.testBit_mod_two_pow, BitVec.testBit_toNat]

/-- Settles O3: above 0 the remainder is that of `BitVec` (`umod32_eq`), whose corner cases the library has. -/
theorem remainderIsBelowItsDivisor : Obligations.RemainderIsBelowItsDivisor := by
  intro a n hn
  refine ⟨a % n, umod32_eq a hn, ?formula, umod_lt a hn, ?one, BitVec.umod_eq_of_lt, ?self, ?twoPow⟩
  case formula => rw [BitVec.toNat_umod, Nat.mod_eq_sub_mul_div]
  case one => rintro rfl; exact BitVec.umod_one
  case self => rintro rfl; exact BitVec.umod_self
  case twoPow => intro j _ hj i; exact umod_getLsbD_of_two_pow a hj i

/-- Rule R7's corner case: the product by 2 is the left shift by 1. -/
theorem mul32_two (a : Word) : mul32 a 2#32 = a <<< 1 := by
  rw [mul32_eq, BitVec.shiftLeft_eq_mul_twoPow]
  rfl

/-- Rule R10 on numbers: the right shift is the floor of the quotient by a power of two. -/
theorem shr32_toNat (a : Word) (n : Nat) : (shr32 a n).toNat = a.toNat / 2 ^ n := by
  rw [shr32_eq, BitVec.toNat_ushiftRight, Nat.shiftRight_eq_div_pow]

/-- Settles O1: product and sum are those of `BitVec`, which are modulo 2^32; the corner cases with fixed operands are
evaluated. -/
theorem primitivesWrapModuloTwoPow32 : Obligations.PrimitivesWrapModuloTwoPow32 := by
  intro a b
  refine ⟨?product, ?timesZero, ?timesOne, by decide, by decide, mul32_two a, ?sum, by decide, ?xor, ?shift⟩
  case product => rw [mul32_eq, BitVec.toNat_mul]
  case timesZero => rw [mul32_eq, BitVec.mul_zero]
  case timesOne => rw [mul32_eq, BitVec.mul_one]
  case sum => rw [add32_eq, BitVec.toNat_add]
  case xor => intro i; exact BitVec.getLsbD_xor
  case shift =>
    intro n _ _
    refine ⟨shr32_toNat a n, fun i => ?_⟩
    rw [shr32_eq, BitVec.getLsbD_ushiftRight]

/-- Rule R24 where no filter exists: without an instance there is no size and no cell. -/
theorem FilterInv.absent (c : Config) : FilterInv c { size := 0#32, constructed := false, cells := [] } where
  size_range := by simp
  no_instance := fun _ => ⟨rfl, rfl⟩
  canonical := Memory.wf_nil
  in_array := by simp

/-- Settles O37: after reset there is no filter, no pending response and no command in progress. -/
theorem resetStateMeetsTheInvariant : Obligations.ResetStateMeetsTheInvariant := fun c hc =>
  { legal := hc
    filter := FilterInv.absent c
    count := Nat.zero_le 4
    one_response := Nat.zero_le 1
    progress := Bool.noConfusion }

end Sys2Proof.Machine
end

-- ==== The state family (10_state.md): the invariant, the frames, the filter state and the host's moves ====
section
/-! The obligations of 10_state.md. First what the end of a key command does, whichever command it is; then what a
command, a step and an edge can do, said once each; then the invariant, the filter state and the frames, read off it. -/

namespace Sys2Proof.Machine

/-! ### The end of a key command, ADD or CONTAINS (rules R132, R133) -/

/-- The filter state after a key command that answers OK: ADD sets the cells of its hashes, CONTAINS nothing. -/
def keyFilter (s : State) : Filter :=
  if s.seq.cmdOp = opAdd then withThree s.filter s.fnvAcc s.mm.hash else s.filter

/-- The `RESULT` of a key command that answers OK: 0 for ADD, the AND of the three cells for CONTAINS. -/
def keyResult (s : State) : Bit :=
  if s.seq.cmdOp = opAdd then 0#1 else andThree s.filter s.fnvAcc s.mm.hash

theorem finishInProgress_none {s : State} (hc : s.filter.constructed = false) :
    ∃ t, finishInProgress s = .next t ∧
      Done s t s.filter s.chan.keyIn .notConstructed 0#1 s.fnvAcc s.mm.hash := by
  refine ⟨answerError .notConstructed s.fnvAcc s.mm.hash s, ?_, respond_done _ _ _ _ rfl rfl rfl⟩
  rw [finishInProgress, finishAdd_none hc, finishContains_none hc, ite_self]

theorem finishInProgress_zero {s : State} (hc : s.filter.constructed = true) (hs : s.filter.size = 0#32) :
    finishInProgress s = .fault .zeroDivisor := by
  rw [finishInProgress, finishAdd_zero hc hs, finishContains_zero hc hs, ite_self]

theorem finishInProgress_ok {s : State} (hc : s.filter.constructed = true) (hs : s.filter.size ≠ 0#32) :
    ∃ t, finishInProgress s = .next t ∧
      Done s t (keyFilter s) s.chan.keyIn .ok (keyResult s) s.fnvAcc s.mm.hash := by
  by_cases hop : s.seq.cmdOp = opAdd
  · obtain ⟨u, hu, hcfg, hchan, hfresh, hfil⟩ := finishAdd_ok hc hs
    rw [finishInProgress, keyFilter, keyResult, if_pos hop, if_pos hop, if_pos hop, ← hfil]
    exact ⟨_, hu, respond_done _ _ _ _ hcfg hchan hfresh⟩
  · obtain ⟨u, hu, hcfg, hchan, hfresh, hfil⟩ := finishContains_ok hc hs
    rw [finishInProgress, keyFilter, keyResult, if_neg hop, if_neg hop, if_neg hop]
    exact ⟨_, hu, hfil ▸ respond_done _ _ _ _ hcfg hchan hfresh⟩

/-- The filter state `g` is `f`, or an ADD has set three cells of the existing filter in it. -/
def KeptOrSet (f g : Filter) : Prop := g = f ∨ (f.constructed = true ∧ ∃ a b, g = withThree f a b)

/-- A key command that is over has given one response, and has set at most its three cells. -/
theorem finishInProgress_cases {s t : State} (h : finishInProgress s = .next t) :
    KeptOrSet s.filter t.filter ∧
      ∃ f st res, Done s t f s.chan.keyIn st res s.fnvAcc s.mm.hash := by
  cases hc : s.filter.constructed with
  | false =>
    obtain ⟨u, hu, hd⟩ := finishInProgress_none hc
    cases hu.symm.trans h
    exact ⟨.inl hd.filter, _, _, _, hd⟩
  | true =>
    by_cases hs : s.filter.size = 0#32
    · cases (finishInProgress_zero hc hs).symm.trans h
    · obtain ⟨u, hu, hd⟩ := finishInProgress_ok hc hs
      cases hu.symm.trans h
      refine ⟨?_, _, _, _, hd⟩
      rw [hd.filter, keyFilter]
      split
      · exact .inr ⟨hc, _, _, rfl⟩
      · exact .inl rfl

/-! ### What a command can do -/

/-- A command waits for key bytes, or it is over with one response; either way it has taken its own key bytes alone, and
a `RESULT` of 1 comes from a CONTAINS that answers OK. -/
theorem exec_ends {i : Instr} {s t : State} (h : exec i s = .next t) :
    ((∃ op len, Waits s t op len) ∧ s.chan.keyIn.length < i.keyBytes) ∨
    ∃ f st res a b, Done s t f (s.chan.keyIn.drop i.keyBytes) st res a b ∧ i.keyBytes ≤ s.chan.keyIn.length ∧
      (res = 1#1 → st = .ok ∧ ∃ len, i = .contains len) := by
  have never {P : Prop} (h01 : 0#1 = 1#1) : P := absurd h01 (by decide)
  cases exec_cases h with
  | createZero hi hd => subst hi; exact .inr ⟨_, _, _, _, _, hd, Nat.zero_le _, never⟩
  | createCapacity size hi _ hd => subst hi; exact .inr ⟨_, _, _, _, _, hd, Nat.zero_le _, never⟩
  | createOk size hi _ hd => subst hi; exact .inr ⟨_, _, _, _, _, hd, Nat.zero_le _, never⟩
  | clearNone x hi _ hd => subst hi; exact .inr ⟨_, _, _, _, _, hd, Nat.zero_le _, never⟩
  | clearOk x hi _ hd => subst hi; exact .inr ⟨_, _, _, _, _, hd, Nat.zero_le _, never⟩
  | waits op len hi hl hw =>
    obtain ⟨rfl, -⟩ | ⟨rfl, -⟩ := hi
    · exact .inl ⟨⟨_, _, hw⟩, hl⟩
    · exact .inl ⟨⟨_, _, hw⟩, hl⟩
  | keyNone len hi hl _ hd =>
    obtain rfl | rfl := hi
    · exact .inr ⟨_, _, _, _, _, hd, Nat.le_of_not_lt hl, never⟩
    · exact .inr ⟨_, _, _, _, _, hd, Nat.le_of_not_lt hl, never⟩
  | addOk len hi hl _ _ hd => subst hi; exact .inr ⟨_, _, _, _, _, hd, Nat.le_of_not_lt hl, never⟩
  | containsOk len hi hl _ _ hd =>
    subst hi
    exact .inr ⟨_, _, _, _, _, hd, Nat.le_of_not_lt hl, fun _ => ⟨rfl, len, rfl⟩⟩

/-- What a command makes of the filter state: at most three cells set, but for a CREATE that succeeds and a CLEAR. -/
theorem exec_filter {i : Instr} {s t : State} (h : exec i s = .next t) :
    KeptOrSet s.filter t.filter ∨
    (∃ size, i = .create size ∧ createSucceeds size s ∧ t.filter = { size := size, constructed := true, cells := [] }) ∨
    ∃ x, i = .clear x ∧ t.filter = { s.filter with cells := [] } := by
  cases exec_cases h with
  | createOk size hi hc hd => exact .inr (.inl ⟨size, hi, hc, hd.filter⟩)
  | clearOk x hi _ hd => exact .inr (.inr ⟨x, hi, hd.filter⟩)
  | addOk _ _ _ hc _ hd => exact .inl (.inr ⟨hc, _, _, hd.filter⟩)
  | waits _ _ _ _ hw => exact .inl (.inl hw.filter)
  | createZero _ hd => exact .inl (.inl hd.filter)
  | createCapacity _ _ _ hd => exact .inl (.inl hd.filter)
  | clearNone _ _ _ hd => exact .inl (.inl hd.filter)
  | keyNone _ _ _ _ hd => exact .inl (.inl hd.filter)
  | containsOk _ _ _ _ _ hd => exact .inl (.inl hd.filter)

/-- A command in progress that goes on runs dry again, or its key is complete and it finishes. -/
theorem resumeCommand_cases {s t : State} (h : resumeCommand s = .next t) :
    t = keyLoop s.chan.keyIn s ∨ finishInProgress (endKey (keyLoop s.chan.keyIn s)) = .next t := by
  simp only [resumeCommand, runKey] at h
  split at h
  · split at h
    · cases h; exact .inl rfl
    · exact .inr h
  · cases h

theorem resumeCommand_filter {s t : State} (h : resumeCommand s = .next t) : KeptOrSet s.filter t.filter := by
  rcases resumeCommand_cases h with rfl | hfin
  · exact .inl (keyLoop_filter _ _)
  · simpa using (finishInProgress_cases hfin).1

/-! ### What a step and an edge can do -/

/-- The ways in which the core moves on, given how a command in progress goes on and how a command word's command
begins. -/
inductive Move (resume : State → Host.Outcome State Fault Refusal)
    (start : Instr → State → Host.Outcome State Fault Refusal) (s t : State) : Prop where
  | reset (ha : nextAction s = .resetEdge) (ht : t = applyReset s)
  | handOver (w : RspWord) (rest : List RspWord) (hr : s.chan.rspOut = w :: rest) (ht : t = handOver w rest s)
  | wait (ht : t = s)
  | resume (hr : s.chan.rspOut = []) (hp : s.inProgress = true) (h : resume s = .next t)
  | accept (w : CmdWord) (rest : List CmdWord) (ha : nextAction s = .accept w rest) (hr : s.chan.rspOut = [])
      (h : start (decode w) (popCommand rest s) = .next t)

/-- A step and an edge alike: what the core does next (`nextAction`), with the two parts in which they differ open. -/
def act (resume : State → Host.Outcome State Fault Refusal)
    (start : Instr → State → Host.Outcome State Fault Refusal) (s : State) : Host.Outcome State Fault Refusal :=
  match nextAction s with
  | .resetEdge => .next (applyReset s)
  | .handOver w rest => .next (handOver w rest s)
  | .wait => .next s
  | .resume => resume s
  | .accept w rest => start (decode w) (popCommand rest s)

theorem act_move {resume : State → Host.Outcome State Fault Refusal}
    {start : Instr → State → Host.Outcome State Fault Refusal} {s t : State} (h : act resume start s = .next t) :
    Move resume start s t := by
  rw [act] at h
  rcases nextAction_cases s with ⟨ha, -⟩ | ⟨w, rest, ha, -, hr, -⟩ | ⟨ha, -⟩ | ⟨ha, -, hr, hp⟩ | ⟨w, rest, ha, hi, -⟩ <;>
    rw [ha] at h
  · cases h; exact .reset ha rfl
  · cases h; exact .handOver w rest hr rfl
  · cases h; exact .wait rfl
  · exact .resume hr hp h
  · exact .accept w rest ha hi.no_response h

theorem step_eq_act (s : State) : step s = act resumeCommand exec s := rfl

theorem step_move {s t : State} (h : step s = .next t) : Move resumeCommand exec s t :=
  act_move ((step_eq_act s).symm.trans h)

/-- How a command in progress goes on at an edge. -/
def resumeEdge (s : State) : Host.Outcome State Fault Refusal :=
  if sequencerOk s then keyEdge s else .fault .brokenSequencer

theorem edge_eq_act (s : State) : edge s = act resumeEdge startCommand s := rfl

theorem edge_move {s t : State} (h : edge s = .next t) : Move resumeEdge startCommand s t :=
  act_move ((edge_eq_act s).symm.trans h)

/-! ### The invariant -/

theorem KeptOrSet.filterInv {c : Config} {f g : Filter} (h : KeptOrSet f g) (hf : FilterInv c f) : FilterInv c g := by
  obtain rfl | ⟨hc, a, b, rfl⟩ := h
  · exact hf
  · exact hf.withThree hc a b

/-- A change on the channels keeps the invariant when the responses stay or are all gone. -/
theorem Inv.setChan {s : State} (h : Inv s) {v : Channels} (hv : v.rspOut = [] ∨ v.rspOut = s.chan.rspOut) :
    Inv (s.setChan v) where
  legal := h.legal
  filter := h.filter
  count := h.count
  one_response := by
    rcases hv with hv | hv <;> rw [State.setChan_chan, hv]
    · exact Nat.zero_le 1
    · exact h.one_response
  progress := by
    intro hp
    obtain ⟨hr, taken, ht⟩ := h.progress hp
    exact ⟨hv.elim id (·.trans hr), taken, ht.setChan v⟩

/-- A command that is over leaves the invariant when it leaves the filter state sound. -/
theorem Inv.of_done {s t : State} {f : Filter} {rest : List Byte} {st : Status} {res : Bit} {a b : Word}
    (hd : Done s t f rest st res a b) (hl : s.cfg.Legal) (hf : FilterInv s.cfg t.filter) (hr : s.chan.rspOut = []) :
    Inv t where
  legal := hd.cfg ▸ hl
  filter := hd.cfg ▸ hf
  count := hd.count
  one_response := by simp [hd.chan, hr]
  progress := by simp [hd.finished]

/-- A command in progress leaves the invariant when it has touched neither filter state nor responses. -/
theorem Inv.of_progress {s t : State} {taken : List Byte} (h : Inv s) (hp : KeyProgress t taken) (hcfg : t.cfg = s.cfg)
    (hf : t.filter = s.filter) (hr : t.chan.rspOut = []) : Inv t where
  legal := hcfg ▸ h.legal
  filter := by rw [hcfg, hf]; exact h.filter
  count := hp.count_le.trans (by decide)
  one_response := by simp [hr]
  progress := fun _ => ⟨hr, taken, hp⟩

theorem Inv.applyReset {s : State} (h : Inv s) : Inv (applyReset s) where
  legal := by simpa using h.legal
  filter := by simpa using FilterInv.absent s.cfg
  count := by simp
  one_response := by simp
  progress := by simp

/-- The core keeps the invariant when going on with a command and beginning one do. -/
theorem Move.keeps_inv {resume : State → Host.Outcome State Fault Refusal}
    {start : Instr → State → Host.Outcome State Fault Refusal} {s t : State}
    (hresume : ∀ {taken}, KeyProgress s taken → s.chan.rspOut = [] → resume s = .next t → Inv t)
    (hstart : ∀ {i u}, Inv u → u.chan.rspOut = [] → start i u = .next t → Inv t)
    (h : Inv s) (hm : Move resume start s t) : Inv t := by
  cases hm with
  | reset _ ht => exact ht ▸ h.applyReset
  | handOver w rest hr ht =>
    have hrest : rest = [] := by simpa [hr] using h.one_response
    exact ht ▸ h.setChan (.inl hrest)
  | wait ht => exact ht ▸ h
  | resume hr hp hgo =>
    obtain ⟨-, taken, hk⟩ := h.progress hp
    exact hresume hk hr hgo
  | accept w rest _ hr hgo =>
    have hpop : Inv (popCommand rest s) := h.setChan (.inr rfl)
    exact hstart hpop hr hgo

theorem exec_keeps_inv {i : Instr} {s t : State} (h : Inv s) (hr : s.chan.rspOut = []) (he : exec i s = .next t) :
    Inv t := by
  have hf : FilterInv s.cfg t.filter := by
    rcases exec_filter he with hk | ⟨size, -, hc, hf⟩ | ⟨x, -, hf⟩
    · exact hk.filterInv h.filter
    · exact hf ▸ FilterInv.created hc
    · exact hf ▸ h.filter.cleared
  rcases exec_ends he with ⟨⟨op, len, hw⟩, -⟩ | ⟨f, st, res, a, b, hd, -, -⟩
  · exact h.of_progress hw.progress hw.cfg hw.filter (by rw [hw.chan]; exact hr)
  · exact .of_done hd h.legal hf hr

/-- The end of a key command keeps the invariant, whatever the key phase has left in the working registers. -/
theorem finishInProgress_keeps_inv {s u t : State} (h : Inv s) (hcfg : u.cfg = s.cfg) (hf : u.filter = s.filter)
    (hr : u.chan.rspOut = []) (hfin : finishInProgress u = .next t) : Inv t := by
  obtain ⟨hk, f, st, res, hd⟩ := finishInProgress_cases hfin
  exact .of_done hd (hcfg ▸ h.legal) (hk.filterInv (by rw [hcfg, hf]; exact h.filter)) hr

theorem resumeCommand_keeps_inv {s t : State} {taken : List Byte} (h : Inv s) (hp : KeyProgress s taken)
    (hr : s.chan.rspOut = []) (hgo : resumeCommand s = .next t) : Inv t := by
  obtain ⟨hp', hchan⟩ := keyLoop_progress hp s.chan.keyIn
  have hr' : (keyLoop s.chan.keyIn s).chan.rspOut = [] := by rw [hchan]; exact hr
  rcases resumeCommand_cases hgo with rfl | hfin
  · exact h.of_progress hp' (by simp) (by simp) hr'
  · exact finishInProgress_keeps_inv h (by simp) (by simp) (by simpa using hr') hfin

/-- Settles O38: a step is one of the moves, and each part of a move keeps the invariant. -/
theorem everyStepKeepsTheInvariant : Obligations.EveryStepKeepsTheInvariant := fun _ _ h hs =>
  (step_move hs).keeps_inv (resumeCommand_keeps_inv h) exec_keeps_inv h

theorem keyEdge_keeps_inv {s t : State} {taken : List Byte} (h : Inv s) (hp : KeyProgress s taken)
    (hr : s.chan.rspOut = []) (hgo : keyEdge s = .next t) : Inv t := by
  rw [keyEdge] at hgo
  split at hgo
  · next hlt =>
    cases hk : s.chan.keyIn with
    | nil =>
      simp only [keyNext, hk] at hgo
      cases hgo; exact h
    | cons b bs =>
      simp only [keyNext, hk] at hgo
      cases hgo
      have hp' := takeByte_progress (hp.setChan { s.chan with keyIn := bs }) b ((keyIdx_lt_iff hp).mp hlt)
      exact h.of_progress hp' (by simp) (by simp) (by simpa using hr)
  · exact finishInProgress_keeps_inv h (by simp) (by simp) (by simpa using hr) hgo

theorem resumeEdge_keeps_inv {s t : State} {taken : List Byte} (h : Inv s) (hp : KeyProgress s taken)
    (hr : s.chan.rspOut = []) (hgo : resumeEdge s = .next t) : Inv t := by
  rw [resumeEdge, if_pos (sequencerOk_of_progress hp)] at hgo
  exact keyEdge_keeps_inv h hp hr hgo

theorem startCommand_keeps_inv {i : Instr} {s t : State} (h : Inv s) (hr : s.chan.rspOut = [])
    (hgo : startCommand i s = .next t) : Inv t := by
  have started {op : BitVec 2} (hop : op = opAdd ∨ op = opContains) (len : Word) : Inv (startKey op len s) :=
    h.of_progress (startKey_progress hop len s) (by simp) (by simp) (by simpa using hr)
  cases i with
  | create size => exact exec_keeps_inv (i := .create size) h hr hgo
  | clear x => exact exec_keeps_inv (i := .clear x) h hr hgo
  | add len => cases hgo; exact started (.inl rfl) len
  | contains len => cases hgo; exact started (.inr rfl) len

/-- Settles O39: an edge is one of the moves, and each part of a move keeps the invariant. -/
theorem everyEdgeKeepsTheInvariant : Obligations.EveryEdgeKeepsTheInvariant := fun _ _ h he =>
  (edge_move he).keeps_inv (resumeEdge_keeps_inv h) startCommand_keeps_inv h

/-! ### What a step makes of the filter state -/

/-- A step sets at most three cells, unless it is a reset edge or runs a CREATE that succeeds or a CLEAR. -/
theorem step_filter {s t : State} (h : step s = .next t) :
    KeptOrSet s.filter t.filter ∨ nextAction s = .resetEdge ∨
    ∃ w rest, nextAction s = .accept w rest ∧
      ((∃ size, decode w = .create size ∧ createSucceeds size s ∧
        t.filter = { size := size, constructed := true, cells := [] }) ∨
      ∃ x, decode w = .clear x ∧ t.filter = { s.filter with cells := [] }) := by
  cases step_move h with
  | reset ha _ => exact .inr (.inl ha)
  | handOver w rest _ ht => exact .inl (.inl (by simp [ht]))
  | wait ht => exact .inl (.inl (by rw [ht]))
  | resume _ _ hgo => exact .inl (resumeCommand_filter hgo)
  | accept w rest ha _ hgo =>
    rcases exec_filter hgo with hk | hzero
    · exact .inl hk
    · exact .inr (.inr ⟨w, rest, ha, hzero⟩)

theorem KeptOrSet.size {f g : Filter} (h : KeptOrSet f g) : g.size = f.size := by
  obtain rfl | ⟨-, a, b, rfl⟩ := h <;> rfl

theorem KeptOrSet.constructed {f g : Filter} (h : KeptOrSet f g) : g.constructed = f.constructed := by
  obtain rfl | ⟨-, a, b, rfl⟩ := h <;> rfl

/-- Setting cells leaves a 1 a 1. -/
theorem KeptOrSet.read_one {f g : Filter} (h : KeptOrSet f g) (hw : Memory.wf f.cells) {i : Nat}
    (hi : Memory.read f.cells i = 1#1) : Memory.read g.cells i = 1#1 := by
  obtain rfl | ⟨-, a, b, rfl⟩ := h
  · exact hi
  · rw [read_withThree f a b hw, hi, ite_self]

theorem cellRead_eq_one_iff {i : Word} {s : State} :
    cellRead i s = some 1#1 ↔
      (s.filter.constructed = true ∧ i.toNat < s.filter.size.toNat) ∧ Memory.read s.filter.cells i.toNat = 1#1 := by
  rw [← cellExists_iff, cellRead]
  split <;> simp_all

/-- Settles O42: a step that is none of the exceptions sets cells and clears none (`KeptOrSet.read_one`). -/
theorem cellsOnlyRise : Obligations.CellsOnlyRise := by
  intro s t i h hs hi
  rcases step_filter hs with hk | ha | ⟨w, rest, ha, ⟨size, hw, hc, -⟩ | ⟨x, hw, -⟩⟩
  · rw [cellRead_eq_one_iff] at hi
    obtain ⟨hex, hone⟩ := hi
    refine .inl (cellRead_eq_one_iff.mpr ⟨?_, hk.read_one h.filter.canonical hone⟩)
    rw [hk.constructed, hk.size]
    exact hex
  · exact .inr (.inl ha)
  · exact .inr (.inr ⟨w, rest, ha, by rw [hw]; exact hc⟩)
  · exact .inr (.inr ⟨w, rest, ha, by rw [hw]; trivial⟩)

/-- Settles O43: of the ways of `step_filter` only the CREATE that succeeds and the reset write the two. -/
theorem onlyCreateWritesSizeAndConstructed : Obligations.OnlyCreateWritesSizeAndConstructed := by
  intro s t hs
  rcases step_filter hs with hk | ha | ⟨w, rest, ha, ⟨size, hw, hc, hf⟩ | ⟨x, -, hf⟩⟩
  · exact .inl ⟨hk.size, hk.constructed⟩
  · exact .inr (.inl ha)
  · exact .inr (.inr ⟨size, w, rest, ha, hw, hc, by rw [hf], by rw [hf]⟩)
  · exact .inl ⟨by rw [hf], by rw [hf]⟩

/-! ### The frames of a command -/

theorem Waits.frame {s t : State} {op : BitVec 2} {len : Word} (h : Waits s t op len) : CommandFrame s t where
  cfg := h.cfg
  rst := by rw [h.chan]
  rspReady := by rw [h.chan]
  cmdIn := by rw [h.chan]
  rspTaken := by rw [h.chan]

/-- Settles O28: a command waits or is over (`exec_ends`), and each says all of its effect on the channels. -/
theorem everyCommandKeepsItsFrame : Obligations.EveryCommandKeepsItsFrame := by
  intro i s t h
  rcases exec_ends h with ⟨⟨op, len, hw⟩, hl⟩ | ⟨f, st, res, a, b, hd, hl, hres⟩
  · refine ⟨hw.frame, ?_, fun _ => ⟨hw.filter, by rw [hw.chan], hl⟩, by simp [hw.inProgress]⟩
    rw [hw.chan, List.drop_of_length_le hl.le]
  · exact ⟨hd.frame, by rw [hd.chan], by simp [hd.finished], fun _ => ⟨st, res, a, b, hd.answered, hl, hres⟩⟩

/-! ### The working registers between commands (rule R34) -/

theorem sameShown_of_done {s s' : State} (hcfg : s.cfg = s'.cfg) (hchan : s.chan = s'.chan) {f : Filter}
    {rest : List Byte} {st : Status} {res : Bit} {a b : Word} {x x' : Host.Outcome State Fault Refusal}
    (h : ∃ t, x = .next t ∧ Done s t f rest st res a b) (h' : ∃ t, x' = .next t ∧ Done s' t f rest st res a b) :
    SameShown x x' := by
  obtain ⟨t, rfl, hd⟩ := h
  obtain ⟨t', rfl, hd'⟩ := h'
  simp only [SameShown, view, hd.cfg, hd'.cfg, hd.filter, hd'.filter, hd.finished, hd'.finished, hd.chan, hd'.chan,
    hcfg, hchan]

theorem sameShown_of_waits {s s' : State} (hv : view s = view s') {op : BitVec 2} {len : Word}
    {x x' : Host.Outcome State Fault Refusal} (h : ∃ t, x = .next t ∧ Waits s t op len)
    (h' : ∃ t, x' = .next t ∧ Waits s' t op len) : SameShown x x' := by
  obtain ⟨t, rfl, hw⟩ := h
  obtain ⟨t', rfl, hw'⟩ := h'
  obtain ⟨hcfg, hfil, -, hchan⟩ := View.mk.inj hv
  simp only [SameShown, view, hw.cfg, hw'.cfg, hw.filter, hw'.filter, hw.inProgress, hw'.inProgress, hw.chan, hw'.chan,
    hcfg, hfil, hchan]

/-- Two states that agree in all that the end of a key command reads. -/
structure SameKeyEnd (s s' : State) : Prop where
  cmdOp : s.seq.cmdOp = s'.seq.cmdOp
  fnvAcc : s.fnvAcc = s'.fnvAcc
  hash : s.mm.hash = s'.mm.hash
  cfg : s.cfg = s'.cfg
  filter : s.filter = s'.filter
  chan : s.chan = s'.chan

theorem SameKeyEnd.sameShown {s s' : State} (h : SameKeyEnd s s') :
    SameShown (finishInProgress s) (finishInProgress s') := by
  cases hc : s.filter.constructed with
  | false =>
    have hd' := finishInProgress_none (h.filter ▸ hc)
    rw [← h.filter, ← h.chan, ← h.fnvAcc, ← h.hash] at hd'
    exact sameShown_of_done h.cfg h.chan (finishInProgress_none hc) hd'
  | true =>
    by_cases hs : s.filter.size = 0#32
    · rw [finishInProgress_zero hc hs, finishInProgress_zero (h.filter ▸ hc) (h.filter ▸ hs)]
      rfl
    · have hd' := finishInProgress_ok (h.filter ▸ hc) (h.filter ▸ hs)
      rw [keyFilter, keyResult, ← h.cmdOp, ← h.filter, ← h.chan, ← h.fnvAcc, ← h.hash] at hd'
      exact sameShown_of_done h.cfg h.chan (finishInProgress_ok hc hs) hd'

/-- A key command with its whole key comes to its end with the two hashes of the key, on the filter state it found. -/
theorem startKey_done (finish : State → Host.Outcome State Fault Refusal) {s : State} {op : BitVec 2}
    (hop : op = opAdd ∨ op = opContains) {len : Word} (hl : ¬ s.chan.keyIn.length < len.toNat) :
    ∃ t, runKey finish (startKey op len s) = finish t ∧ t.seq.cmdOp = op ∧
      t.fnvAcc = fnvHash (s.chan.keyIn.take len.toNat) ∧ t.mm.hash = murmurHash3 (s.chan.keyIn.take len.toNat) ∧
      t.cfg = s.cfg ∧ t.filter = s.filter ∧ t.chan = { s.chan with keyIn := s.chan.keyIn.drop len.toNat } := by
  obtain ⟨t, ht, hfnv, hmm, hcfg, hfil, hcmd, hchan, -⟩ := runKey_done (startKey_progress hop len s) finish
    (more := s.chan.keyIn.take len.toNat) (rest := s.chan.keyIn.drop len.toNat) (by simp) (by simp; omega)
  exact ⟨t, ht, by simpa using hcmd, hfnv, hmm, by simpa using hcfg, by simpa using hfil, by simpa using hchan⟩

/-- A key command loads every working register that it reads, so it shows the same whatever they held before. -/
theorem keyCommand_sameShown {s s' : State} (hv : view s = view s') {op : BitVec 2}
    (hop : op = opAdd ∨ op = opContains) (len : Word) :
    SameShown (runKey finishInProgress (startKey op len s)) (runKey finishInProgress (startKey op len s')) := by
  obtain ⟨hcfg, hfil, -, hchan⟩ := View.mk.inj hv
  by_cases hl : s.chan.keyIn.length < len.toNat
  · exact sameShown_of_waits hv (startKey_waits _ hop hl) (startKey_waits _ hop (hchan ▸ hl))
  · obtain ⟨u, hu, huop, hufnv, humm, hucfg, hufil, huchan⟩ := startKey_done finishInProgress hop hl
    obtain ⟨u', hu', huop', hufnv', humm', hucfg', hufil', huchan'⟩ :=
      startKey_done finishInProgress (s := s') hop (hchan ▸ hl)
    rw [← hchan] at hufnv' humm' huchan'
    rw [hu, hu']
    exact SameKeyEnd.sameShown
      { cmdOp := huop.trans huop'.symm
        fnvAcc := hufnv.trans hufnv'.symm
        hash := humm.trans humm'.symm
        cfg := hucfg.trans (hcfg.trans hucfg'.symm)
        filter := hufil.trans (hfil.trans hufil'.symm)
        chan := huchan.trans huchan'.symm }

theorem execCreate_sameShown {s s' : State} (hv : view s = view s') (size : Word) :
    SameShown (execCreate size s) (execCreate size s') := by
  obtain ⟨hcfg, hfil, -, hchan⟩ := View.mk.inj hv
  rcases create_cases size s with rfl | hc | ⟨h0, hc⟩
  · exact sameShown_of_done hcfg hchan (execCreate_zero s) (by rw [hfil, hchan]; exact execCreate_zero s')
  · refine sameShown_of_done hcfg hchan (execCreate_capacity hc) ?_
    rw [hfil, hchan]
    exact execCreate_capacity (hcfg ▸ hc)
  · refine sameShown_of_done hcfg hchan (execCreate_ok ⟨h0, hc⟩) ?_
    rw [hchan]
    exact execCreate_ok ⟨h0, hcfg ▸ hc⟩

theorem execClear_sameShown {s s' : State} (hv : view s = view s') (x : Word) :
    SameShown (execClear x s) (execClear x s') := by
  obtain ⟨hcfg, hfil, -, hchan⟩ := View.mk.inj hv
  cases hc : s.filter.constructed with
  | false =>
    refine sameShown_of_done hcfg hchan (execClear_none x hc) ?_
    rw [hfil, hchan]
    exact execClear_none x (hfil ▸ hc)
  | true =>
    refine sameShown_of_done hcfg hchan (execClear_ok x hc) ?_
    rw [hfil, hchan]
    exact execClear_ok x (hfil ▸ hc)

theorem exec_add_eq (len : Word) (s : State) :
    exec (.add len) s = runKey finishInProgress (startKey opAdd len s) := by
  rw [runKey_finishInProgress, startKey_seq, if_pos rfl]
  rfl

theorem exec_contains_eq (len : Word) (s : State) :
    exec (.contains len) s = runKey finishInProgress (startKey opContains len s) := by
  rw [runKey_finishInProgress, startKey_seq, if_neg (by decide : opContains ≠ opAdd)]
  rfl

/-- Settles O29: CREATE and CLEAR read no working register, ADD and CONTAINS none that they have not loaded. -/
theorem workingRegistersCarryNothing : Obligations.WorkingRegistersCarryNothing := by
  intro i s s' hv
  cases i with
  | create size => exact execCreate_sameShown hv size
  | clear x => exact execClear_sameShown hv x
  | add len => rw [exec_add_eq, exec_add_eq]; exact keyCommand_sameShown hv (.inl rfl) len
  | contains len => rw [exec_contains_eq, exec_contains_eq]; exact keyCommand_sameShown hv (.inr rfl) len

/-! ### The reset state and the host's moves -/

/-- Settles O31: without a filter no cell exists, so none has a value. -/
theorem resetStateIsUninitialized : Obligations.ResetStateIsUninitialized := fun _ =>
  ⟨rfl, rfl, rfl, fun _ => cellRead_none rfl, rfl, rfl, rfl⟩

/-- Settles O40: each move changes the channels alone, and no response on them, so the invariant stays
(`Inv.setChan`). -/
theorem hostMovesTouchOnlyTheirChannel : Obligations.HostMovesTouchOnlyTheirChannel := by
  refine fun s => ⟨fun _ => rfl, fun _ => rfl, fun _ => rfl, fun _ => rfl, fun m => ?_⟩
  cases m with
  | offerCommand w => exact ⟨fun h => h.setChan (.inr rfl), rfl, rfl, rfl⟩
  | offerKey bytes => exact ⟨fun h => h.setChan (.inr rfl), rfl, rfl, rfl⟩
  | driveRst level => exact ⟨fun h => h.setChan (.inr rfl), rfl, rfl, rfl⟩
  | driveRspReady level => exact ⟨fun h => h.setChan (.inr rfl), rfl, rfl, rfl⟩

end Sys2Proof.Machine
end

-- ==== The memory family (20_memory.md): the cell primitives, the order of responses, the chunk word ====
section
/-! The obligations of 20_memory.md. One rule each for a cell written, for a response given and for a byte packed; the
statements are read off them. -/

namespace Sys2Proof.Machine

/-! ### One cell (rules R43 to R45) -/

/-- Writing a cell twice is writing it once. -/
theorem Memory.write_write_same {m : Memory} (h : Memory.wf m) (i : Nat) (b : Bit) :
    Memory.write (Memory.write m i b) i b = Memory.write m i b := by
  have hw := Memory.wf_write h i b
  refine Memory.ext_read (Memory.wf_write hw i b) hw fun j => ?_
  rw [Memory.read_write hw]
  split
  · next hji => rw [hji, Memory.read_write h, if_pos rfl]
  · rfl

/-- A cell write changes what its own cell reads as, and no other. -/
theorem cellRead_of_write {s t : State} {i : Word} {b : Bit} (hw : Memory.wf s.filter.cells)
    (hi : cellExists i s = true)
    (ht : t.filter = { s.filter with cells := Memory.write s.filter.cells i.toNat b }) (j : Word) :
    cellRead j t = if j = i then some b else cellRead j s := by
  have hex : ∀ k, cellExists k t = cellExists k s := fun k => by simp [cellExists, ht]
  by_cases hji : j = i
  · subst hji
    rw [if_pos rfl, cellRead_eq ((hex j).trans hi), ht, Memory.read_write hw, if_pos rfl]
  · have hne : j.toNat ≠ i.toNat := fun h => hji (BitVec.eq_of_toNat_eq h)
    rw [if_neg hji, cellRead, cellRead, hex, ht, Memory.read_write hw, if_neg hne]

/-- CellSet of a cell that CellSet has set changes nothing (rule R44). -/
theorem cellSet_cellSet {s t : State} {i : Word} (hw : Memory.wf s.filter.cells) (hi : cellExists i s = true)
    (ht : cellSet i s = some t) : cellSet i t = some t := by
  rw [cellSet_eq hi] at ht
  cases ht
  rw [cellSet_eq (by simpa [cellExists] using hi)]
  simp [State.setFilter, Memory.write_write_same hw]

/-- Settles O17: CellSet and CellZero are each one write of the cell (`cellRead_of_write`). -/
theorem cellPrimitivesTouchOneCell : Obligations.CellPrimitivesTouchOneCell := by
  intro s i hinv hi
  have hset := cellSet_eq hi
  have hreads {t b} := @cellRead_of_write s t i b hinv.canonical hi
  exact ⟨⟨_, cellRead_eq hi⟩, ⟨_, hset, hreads rfl, rfl, cellSet_cellSet hinv.canonical hi hset⟩, hreads rfl, rfl⟩

/-! ### The sequence of responses (rules R53, R176) -/

theorem nextAction_ne_resetEdge {s : State} (h : s.chan.rst = false) : nextAction s ≠ .resetEdge := by
  intro ha
  rcases nextAction_cases s with ⟨-, hrst⟩ | ⟨w, rest, hn, -⟩ | ⟨hn, -⟩ | ⟨hn, -⟩ | ⟨w, rest, hn, -⟩
  · simp [h] at hrst
  all_goals cases hn.symm.trans ha

/-- The response handed over moves from the pending ones to the taken ones and keeps its place. -/
theorem responses_handOver {s : State} {w : RspWord} {rest : List RspWord} (h : s.chan.rspOut = w :: rest) :
    responses (handOver w rest s) = responses s := by
  simp [responses, h]

theorem responses_keyLoop (ks : List Byte) (s : State) : responses (keyLoop ks s) = responses s := by
  obtain ⟨rest, hc, -⟩ := keyLoop_chan ks s
  rw [responses, hc, responses]

/-- A command that is over has added its response at the end. -/
theorem Done.responses_eq {s t : State} {f : Filter} {rest : List Byte} {st : Status} {res : Bit} {a b : Word}
    (h : Done s t f rest st res a b) : responses t = responses s ++ [rspWord st res a b] := by
  simp [responses, h.chan]

theorem Waits.responses_eq {s t : State} {op : BitVec 2} {len : Word} (h : Waits s t op len) :
    responses t = responses s := by
  simp [responses, h.chan]

/-- A command gives no response while it waits, and one when it is over. -/
theorem exec_responses {i : Instr} {s t : State} (h : exec i s = .next t) :
    responses t = responses s ∨ ∃ w, responses t = responses s ++ [w] := by
  rcases exec_ends h with ⟨⟨op, len, hw⟩, -⟩ | ⟨f, st, res, a, b, hd, -⟩
  · exact .inl hw.responses_eq
  · exact .inr ⟨_, hd.responses_eq⟩

/-- A command in progress that goes on gives no response while it waits again, and one when it finishes. -/
theorem resumeCommand_responses {s t : State} (h : resumeCommand s = .next t) :
    responses t = responses s ∨ ∃ w, responses t = responses s ++ [w] := by
  have hkey : responses (endKey (keyLoop s.chan.keyIn s)) = responses s := by
    rw [responses, endKey_chan]
    exact responses_keyLoop _ s
  rcases resumeCommand_cases h with rfl | hfin
  · exact .inl (responses_keyLoop _ _)
  · obtain ⟨-, f, st, res, hd⟩ := finishInProgress_cases hfin
    exact .inr ⟨_, hkey ▸ hd.responses_eq⟩

/-- Settles O36: of the moves of a step only a command run or resumed adds a response; a reset edge is excluded. -/
theorem responsesComeInCommandOrder : Obligations.ResponsesComeInCommandOrder := by
  intro s t hrst hs
  cases step_move hs with
  | reset ha _ => exact absurd ha (nextAction_ne_resetEdge hrst)
  | handOver w rest hr ht => exact .inl (ht ▸ responses_handOver hr)
  | wait ht => exact .inl (by rw [ht])
  | resume _ _ hgo => exact resumeCommand_responses hgo
  | accept w rest _ _ hgo =>
    have hpop : responses (popCommand rest s) = responses s := rfl
    exact hpop ▸ exec_responses hgo

/-! ### The chunk word (rules R48, R92) -/

/-- A byte in its lane, as a number. -/
theorem byteInLane_toNat (b : Byte) (lane : Nat) : (byteInLane b lane).toNat = b.toNat * 2 ^ (24 - 8 * lane) := by
  have hlane : 2 ^ (24 - 8 * lane) ≤ 2 ^ 24 := Nat.pow_le_pow_right (by decide) (Nat.sub_le _ _)
  have hlt : b.toNat * 2 ^ (24 - 8 * lane) < 2 ^ 32 :=
    calc b.toNat * 2 ^ (24 - 8 * lane) ≤ b.toNat * 2 ^ 24 := Nat.mul_le_mul_left _ hlane
      _ < 2 ^ 32 := by have := b.isLt; omega
  rw [byteInLane, zext32, BitVec.toNat_shiftLeft, Nat.shiftLeft_eq, BitVec.toNat_setWidth_of_le (by decide),
    Nat.mod_eq_of_lt hlt]

/-- Where the lanes from `lane` on are 0, joining a byte into `lane` adds it there. -/
theorem or_byteInLane_toNat {k : Word} {lane : Nat} (hk : 2 ^ (32 - 8 * lane) ∣ k.toNat) (hl : lane ≤ 3) (b : Byte) :
    (k ||| byteInLane b lane).toNat = k.toNat + b.toNat * 2 ^ (24 - 8 * lane) := by
  obtain ⟨q, hq⟩ := hk
  have hlt : b.toNat * 2 ^ (24 - 8 * lane) < 2 ^ (32 - 8 * lane) := by
    have hpow : 2 ^ (32 - 8 * lane) = 2 ^ 8 * 2 ^ (24 - 8 * lane) := by rw [← Nat.pow_add]; congr 1; omega
    rw [hpow]
    exact Nat.mul_lt_mul_of_pos_right b.isLt (Nat.two_pow_pos _)
  rw [BitVec.toNat_or, byteInLane_toNat, hq, Nat.two_pow_add_eq_or_of_lt hlt]

/-- MM_PACK adds its byte in the lane of `MM_CNT`, when that lane and those below it are still 0 (rule R92). -/
theorem mmPack_k_toNat {s : State} {n : Nat} (hc : s.mm.cnt = BitVec.ofNat 3 n) (hn : n ≤ 3)
    (hk : 2 ^ (32 - 8 * n) ∣ s.mm.k.toNat) (b : Byte) :
    (mmPack b s).mm.k.toNat = s.mm.k.toNat + b.toNat * 2 ^ (24 - 8 * n) := by
  have hcnt : s.mm.cnt.toNat = n := by rw [hc, BitVec.toNat_ofNat]; omega
  rw [mmPack_mm, hcnt, or_byteInLane_toNat hk hn]

theorem mmPack_cnt {s : State} {n : Nat} (hc : s.mm.cnt = BitVec.ofNat 3 n) (b : Byte) :
    (mmPack b s).mm.cnt = BitVec.ofNat 3 (n + 1) := by
  rw [mmPack_mm, hc, BitVec.ofNat_add]

/-- Settles O11: each byte is added below those already packed (`mmPack_k_toNat`). -/
theorem chunkFillsFromTheTop : Obligations.ChunkFillsFromTheTop := by
  intro s b0 b1 b2 b3 hk hc
  have c1 := mmPack_cnt (n := 0) hc b0
  have c2 := mmPack_cnt c1 b1
  have c3 := mmPack_cnt c2 b2
  have k1 : (mmPack b0 s).mm.k.toNat = b0.toNat * 2 ^ 24 := by
    rw [mmPack_k_toNat (n := 0) hc (by decide) (by simp [hk]), hk, BitVec.toNat_zero, Nat.zero_add]
  have k2 : (mmPack b1 (mmPack b0 s)).mm.k.toNat = b0.toNat * 2 ^ 24 + b1.toNat * 2 ^ 16 := by
    rw [mmPack_k_toNat c1 (by decide) (by omega), k1]
  have k3 : (mmPack b2 (mmPack b1 (mmPack b0 s))).mm.k.toNat =
      b0.toNat * 2 ^ 24 + b1.toNat * 2 ^ 16 + b2.toNat * 2 ^ 8 := by
    rw [mmPack_k_toNat c2 (by decide) (by omega), k2]
  have k4 : (mmPack b3 (mmPack b2 (mmPack b1 (mmPack b0 s)))).mm.k.toNat =
      b0.toNat * 2 ^ 24 + b1.toNat * 2 ^ 16 + b2.toNat * 2 ^ 8 + b3.toNat := by
    rw [mmPack_k_toNat c3 (by decide) (by omega)]; omega
  exact ⟨k1, k2, k3, k4, mmPack_cnt c3 b3⟩

end Sys2Proof.Machine
end

-- ==== The encoding family (30_encoding.md): words on the channels, transfers, late key bytes, command sequences ====
section
/-! The obligations of 30_encoding.md. A command word is its two fields and a response word is a number; the handshake
statements are read off the action of the state; a command sequence goes from rest to rest, one command at a time. -/

namespace Sys2Proof.Machine

/-! ### Command words (rules R62, R63, R68) -/

theorem decode_of_create {w : CmdWord} (h : opField w = opCreate) : decode w = .create (argField w) := by
  rw [decode, if_pos h]

theorem decode_of_add {w : CmdWord} (h : opField w = opAdd) : decode w = .add (argField w) := by
  rw [decode, h, if_neg (by decide), if_pos rfl]

theorem decode_of_contains {w : CmdWord} (h : opField w = opContains) : decode w = .contains (argField w) := by
  rw [decode, h, if_neg (by decide), if_neg (by decide), if_pos rfl]

theorem decode_of_clear {w : CmdWord} (h : opField w = opClear) : decode w = .clear (argField w) := by
  rw [decode, h, if_neg (by decide), if_neg (by decide), if_neg (by decide)]

/-- The four opcodes are all there are (rule R68). -/
theorem opcode_cases (o : BitVec 2) : o = opCreate ∨ o = opAdd ∨ o = opContains ∨ o = opClear := by
  revert o; decide

/-- A word decodes to the command of its two fields. -/
theorem op_arg_decode (w : CmdWord) : (decode w).op = opField w ∧ (decode w).arg = argField w := by
  obtain h | h | h | h := opcode_cases (opField w)
  · rw [decode_of_create h, h]; exact ⟨rfl, rfl⟩
  · rw [decode_of_add h, h]; exact ⟨rfl, rfl⟩
  · rw [decode_of_contains h, h]; exact ⟨rfl, rfl⟩
  · rw [decode_of_clear h, h]; exact ⟨rfl, rfl⟩

theorem decode_encode (i : Instr) : decode (encode i) = i := by
  cases i with
  | create size => rw [decode_of_create (opField_encode _), argField_encode]; rfl
  | add len => rw [decode_of_add (opField_encode _), argField_encode]; rfl
  | contains len => rw [decode_of_contains (opField_encode _), argField_encode]; rfl
  | clear x => rw [decode_of_clear (opField_encode _), argField_encode]; rfl

theorem encode_decode (w : CmdWord) : encode (decode w) = w := by
  obtain ⟨hop, harg⟩ := op_arg_decode w
  rw [encode, hop, harg, fields_append]

/-- Settles O4: a command is its opcode and its argument, and a word is its two fields (`fields_append`). -/
theorem decodeAndEncodeAgree : Obligations.DecodeAndEncodeAgree := ⟨decode_encode, encode_decode⟩

theorem tableRow (i : Instr) : Laws.TableRow.Statement i := by
  cases i with
  | create size => exact Laws.TableRow.create size
  | add len => exact Laws.TableRow.add len
  | contains len => exact Laws.TableRow.contains len
  | clear x => exact Laws.TableRow.clear x

/-- A word matches one row, the row of its command. -/
theorem row_of_word (w : CmdWord) : ∃ r₀ ∈ opcodeTable, r₀.mnemonic = (decode w).mnemonic ∧
    ∀ r ∈ opcodeTable, w &&& r.mask = r.pattern ↔ r = r₀ := by
  have hrows := tableRow (decode w)
  rw [Laws.TableRow.Statement, encode_decode] at hrows
  obtain ⟨r₀, hone, hname⟩ := List.map_eq_singleton_iff.mp hrows
  have hmem (r : OpcodeRow) : r ∈ opcodeTable ∧ w &&& r.mask = r.pattern ↔ r = r₀ := by
    rw [← List.mem_singleton (a := r), ← hone, List.mem_filter, beq_iff_eq]
  have hin : r₀ ∈ opcodeTable := ((hmem r₀).mpr rfl).1
  exact ⟨r₀, hin, hname, fun r hr => ⟨fun hm => (hmem r).mp ⟨hr, hm⟩, fun h => ((hmem r).mpr h).2⟩⟩

/-- A mnemonic names one row. -/
theorem row_eq_of_mnemonic : ∀ r ∈ opcodeTable, ∀ r' ∈ opcodeTable, r.mnemonic = r'.mnemonic → r = r' := by
  decide

theorem opField_toNat (w : CmdWord) : (opField w).toNat = w.toNat / 2 ^ 32 := by
  have hw := w.isLt
  rw [opField, BitVec.extractLsb'_toNat, Nat.shiftRight_eq_div_pow]
  omega

theorem argField_toNat (w : CmdWord) : (argField w).toNat = w.toNat % 2 ^ 32 := by
  rw [argField, BitVec.extractLsb'_toNat, Nat.shiftRight_zero]

/-- Settles O5: a word matches its command's row alone (`row_of_word`), and a mnemonic names one row. -/
theorem opcodeFieldSelectsTheCommand : Obligations.OpcodeFieldSelectsTheCommand := by
  intro w
  obtain ⟨hop, harg⟩ := op_arg_decode w
  obtain ⟨r₀, hin, hname, hrow⟩ := row_of_word w
  refine ⟨fun r hr => ?row, ⟨r₀, hin, (hrow r₀ hin).mpr rfl⟩, ?op, ?arg⟩
  case row =>
    rw [hrow r hr, ← hname]
    exact ⟨fun h => h ▸ rfl, fun h => row_eq_of_mnemonic r hr r₀ hin h.symm⟩
  case op => rw [hop, opField_toNat]
  case arg => rw [harg, argField_toNat]

/-- Settles O6: closed words, evaluated. -/
theorem writtenOutWordsDecode : Obligations.WrittenOutWordsDecode := by
  unfold Obligations.WrittenOutWordsDecode
  decide

/-! ### Response words (rules R66, R67) -/

/-- Joined bit fields as a number. -/
theorem toNat_append_eq_add {m n : Nat} (x : BitVec m) (y : BitVec n) :
    (x ++ y).toNat = x.toNat * 2 ^ n + y.toNat := by
  rw [BitVec.toNat_append, ← Nat.shiftLeft_add_eq_or_of_lt y.isLt, Nat.shiftLeft_eq]

theorem rspWord_toNat (st : Status) (res : Bit) (a b : Word) :
    (rspWord st res a b).toNat = st.code.toNat * 2 ^ 65 + res.toNat * 2 ^ 64 + a.toNat * 2 ^ 32 + b.toNat := by
  simp only [rspWord, toNat_append_eq_add]
  omega

/-- A field of a response word, from the word as a number. -/
theorem rspField_eq {w : RspWord} {start len : Nat} {x : BitVec len} (h : w.toNat / 2 ^ start % 2 ^ len = x.toNat) :
    w.extractLsb' start len = x := by
  apply BitVec.eq_of_toNat_eq
  rw [BitVec.extractLsb'_toNat, Nat.shiftRight_eq_div_pow, h]

/-- Settles O7: the fields are read off the word as a number (`rspWord_toNat`). -/
theorem responseWordHoldsItsFields : Obligations.ResponseWordHoldsItsFields := by
  intro st res a b
  have hw := rspWord_toNat st res a b
  have hst := st.code.isLt
  have hres := res.isLt
  have ha := a.isLt
  have hb := b.isLt
  refine ⟨hw, rspField_eq ?_, rspField_eq ?_, rspField_eq ?_, rspField_eq ?_, rfl, rfl, rfl, rfl⟩
  all_goals rw [hw]; omega

/-! ### Lines of the text form (rules R64, R69, R70) -/

theorem length_of_keyLenOf {key : List Byte} {len : Word} (h : keyLenOf key = some len) : key.length = len.toNat := by
  rw [keyLenOf] at h
  split at h
  · next hlt =>
    cases h
    rw [trunc32, BitVec.toNat_ofNat, Nat.mod_eq_of_lt hlt]
  · cases h

/-- Settles O8: the length of a key command is that of its key (`length_of_keyLenOf`), and CLEAR is written with 0. -/
theorem assembledLinesAreWellFormed : Obligations.AssembledLinesAreWellFormed := by
  intro l t h
  cases l with
  | create n => cases h; exact ⟨rfl, rfl⟩
  | clear => cases h; exact ⟨rfl, rfl⟩
  | reset => cases h
  | add key =>
    obtain ⟨len, hlen, rfl⟩ := Option.map_eq_some_iff.mp h
    exact ⟨beq_iff_eq.mpr (length_of_keyLenOf hlen), rfl⟩
  | contains key =>
    obtain ⟨len, hlen, rfl⟩ := Option.map_eq_some_iff.mp h
    exact ⟨beq_iff_eq.mpr (length_of_keyLenOf hlen), rfl⟩

/-! ### The step of each action (rules R61, R130, R175, R176) -/

theorem step_of_accept {s : State} {w : CmdWord} {rest : List CmdWord} (h : Idle s) (hw : s.chan.cmdIn = w :: rest) :
    step s = exec (decode w) (popCommand rest s) := by rw [step, nextAction_accept h hw]

theorem step_of_handOver {s : State} {w : RspWord} {rest : List RspWord} (h : s.chan.rst = false)
    (hr : s.chan.rspOut = w :: rest) (hd : s.chan.rspReady = true) : step s = .next (handOver w rest s) := by
  rw [step, nextAction_handOver h hr hd]

theorem step_of_resume {s : State} (h : s.chan.rst = false) (hr : s.chan.rspOut = []) (hp : s.inProgress = true) :
    step s = resumeCommand s := by rw [step, nextAction_resume h hr hp]

/-- Settles O30: an idle core accepts the first word offered. -/
theorem stepRunsTheDecodedCommand : Obligations.StepRunsTheDecodedCommand := fun _ _ _ h hw => step_of_accept h hw

/-! ### Key bytes that come late (rules R69, R175) -/

theorem op_of_key {i : Instr} {len : Word} (hi : i = .add len ∨ i = .contains len) :
    i.op = opAdd ∨ i.op = opContains := by
  obtain rfl | rfl := hi
  · exact .inl rfl
  · exact .inr rfl

/-- ADD and CONTAINS are one key phase, with the opcode in `CMD_OP`. -/
theorem exec_key_eq {i : Instr} {len : Word} (hi : i = .add len ∨ i = .contains len) (s : State) :
    exec i s = runKey finishInProgress (startKey i.op len s) := by
  obtain rfl | rfl := hi
  · exact exec_add_eq len s
  · exact exec_contains_eq len s

/-- The key phase starts alike, whatever key bytes are offered. -/
theorem startKey_offerKey (op : BitVec 2) (len : Word) (late : List Byte) (s : State) :
    startKey op len ((HostMove.offerKey late).apply s) = (HostMove.offerKey late).apply (startKey op len s) := rfl

/-- A key phase that has run dry and is offered the rest ends as one with all the bytes from the start: the loop over
all of them is the loop over the late ones after the loop over the early ones (`keyLoop_append`), and it does not see
the channel it takes them from (`keyLoop_setKeyIn`). -/
theorem runKey_late {finish : State → Host.Outcome State Fault Refusal} {s t : State} {taken : List Byte}
    (hp : KeyProgress s taken) (hshort : taken.length + s.chan.keyIn.length < s.seq.keyLen.toNat)
    (hdry : runKey finish s = .next t) (late : List Byte) :
    runKey finish ((HostMove.offerKey late).apply t) = runKey finish ((HostMove.offerKey late).apply s) := by
  obtain ⟨hloop, -, hchan⟩ := runKey_waits hp finish hshort
  cases hdry.symm.trans hloop
  have hempty : (keyLoop s.chan.keyIn s).chan.keyIn = [] := by rw [hchan]
  have hfit : s.seq.keyIdx.toNat + s.chan.keyIn.length ≤ s.seq.keyLen.toNat := by rw [hp.idx]; exact hshort.le
  simp only [runKey, HostMove.apply, State.setChan_chan, keyLoop_setKeyIn, hempty, List.nil_append,
    keyLoop_append s.chan.keyIn late s hfit]

/-- A step of a waiting key command with more bytes offered goes on with its key phase. -/
theorem step_of_waits {s t : State} {op : BitVec 2} {len : Word} (hw : Waits s t op len) (hrst : s.chan.rst = false)
    (hrsp : s.chan.rspOut = []) (late : List Byte) :
    step ((HostMove.offerKey late).apply t) = runKey finishInProgress ((HostMove.offerKey late).apply t) := by
  have hresume : step ((HostMove.offerKey late).apply t) = resumeCommand ((HostMove.offerKey late).apply t) :=
    step_of_resume (by simpa [HostMove.apply, hw.chan] using hrst) (by simpa [HostMove.apply, hw.chan] using hrsp)
      (by simpa [HostMove.apply] using hw.inProgress)
  have hok : sequencerOk ((HostMove.offerKey late).apply t) = true := sequencerOk_of_progress (hw.progress.setChan _)
  rw [hresume, resumeCommand, if_pos hok]

/-- Settles O27: the next step goes on with the key phase (`step_of_waits`), which ends as if the late bytes had been
there (`runKey_late`). -/
theorem lateKeyBytesChangeNothing : Obligations.LateKeyBytesChangeNothing := by
  rintro s t len i _ late hi hrst hrsp rfl hshort he
  rw [exec_key_eq hi] at he ⊢
  obtain ⟨t', ht', hw⟩ := startKey_waits finishInProgress (op_of_key hi) hshort
  cases ht'.symm.trans he
  rw [step_of_waits hw hrst hrsp, startKey_offerKey]
  exact runKey_late (startKey_progress (op_of_key hi) len s) (by simpa using hshort) he late

/-! ### The outputs and the transfers (rules R60, R61) -/

theorem cmdReady_iff_idle (s : State) : cmdReady s = true ↔ Idle s := by
  simp only [cmdReady, Bool.and_eq_true, Bool.not_eq_true', List.isEmpty_iff]
  exact ⟨fun ⟨⟨hrst, hp⟩, hr⟩ => ⟨hrst, hp, hr⟩, fun ⟨hrst, hp, hr⟩ => ⟨⟨hrst, hp⟩, hr⟩⟩

theorem keyReady_iff (s : State) : keyReady s = true ↔
    s.chan.rst = false ∧ s.inProgress = true ∧ s.seq.keyIdx.toNat < s.seq.keyLen.toNat := by
  simp only [keyReady, Bool.and_eq_true, Bool.not_eq_true', decide_eq_true_eq, BitVec.lt_def, and_assoc]

theorem rspValid_iff (s : State) : rspValid s = true ↔ s.chan.rst = false ∧ s.chan.rspOut ≠ [] := by
  simp [rspValid]

/-- Settles O33: the outputs are these conditions; that a command in progress is an ADD or CONTAINS is the invariant's
(`KeyProgress.op`). -/
theorem readyOutputsFollowTheSequencer : Obligations.ReadyOutputsFollowTheSequencer := by
  intro s h
  refine ⟨cmdReady_iff_idle s, ?_, rspValid_iff s⟩
  rw [keyReady_iff]
  refine ⟨fun ⟨hrst, hp, hlt⟩ => ?_, fun ⟨hrst, hp, _, hlt⟩ => ⟨hrst, hp, hlt⟩⟩
  obtain ⟨-, taken, hk⟩ := h.progress hp
  exact ⟨hrst, hp, hk.op, hlt⟩

theorem cmdTransfer_eq_false {s : State} (h : ¬ Idle s) : cmdTransfer s = false := by
  simp [cmdTransfer, mt (cmdReady_iff_idle s).mp h]

theorem keyTransfer_eq_false {s : State} (hp : s.inProgress = false) : keyTransfer s = false := by
  simp [keyTransfer, keyReady, hp]

theorem rspTransfer_eq_false {s : State} (hr : s.chan.rspOut = []) : rspTransfer s = false := by
  simp [rspTransfer, rspValid, hr]

theorem cmdTransfer_of_idle {s : State} (h : Idle s) : cmdTransfer s = cmdValid s := by
  rw [cmdTransfer, (cmdReady_iff_idle s).mpr h, Bool.and_true]

/-- While a response is pending no command is in progress (log entry 6). -/
theorem Inv.no_command_of_response {s : State} (h : Inv s) (hr : s.chan.rspOut ≠ []) : s.inProgress = false := by
  cases hp : s.inProgress with
  | false => rfl
  | true => exact absurd (h.progress hp).1 hr

/-- How an edge moves the channels of `s` when it transfers what the three flags say: one word, or none. -/
structure Moves (s t : State) (cmd key rsp : Bool) : Prop where
  cmdIn : t.chan.cmdIn = if cmd then s.chan.cmdIn.tail else s.chan.cmdIn
  keyIn : t.chan.keyIn = if key then s.chan.keyIn.tail else s.chan.keyIn
  rspTaken : t.chan.rspTaken = if rsp then s.chan.rspTaken ++ s.chan.rspOut.take 1 else s.chan.rspTaken

theorem Moves.refl (s : State) : Moves s s false false false := ⟨rfl, rfl, rfl⟩

/-- A command that begins takes nothing more from the channels at that edge. -/
theorem startCommand_moves {i : Instr} {s t : State} (h : startCommand i s = .next t) :
    Moves s t false false false := by
  cases i with
  | create size =>
    obtain ⟨hf, hkey, -⟩ := everyCommandKeepsItsFrame (.create size) s t h
    exact ⟨hf.cmdIn, hkey, hf.rspTaken⟩
  | clear x =>
    obtain ⟨hf, hkey, -⟩ := everyCommandKeepsItsFrame (.clear x) s t h
    exact ⟨hf.cmdIn, hkey, hf.rspTaken⟩
  | add len => cases h; exact ⟨by simp, by simp, by simp⟩
  | contains len => cases h; exact ⟨by simp, by simp, by simp⟩

theorem keyEdge_moves {s t : State} (h : keyEdge s = .next t) :
    Moves s t false (keyValid s && decide (s.seq.keyIdx < s.seq.keyLen)) false := by
  rw [keyEdge] at h
  split at h
  · next hlt =>
    cases hk : s.chan.keyIn with
    | nil =>
      simp only [keyNext, hk] at h
      cases h
      exact ⟨rfl, by simp [hk], rfl⟩
    | cons b bs =>
      simp only [keyNext, hk] at h
      cases h
      exact ⟨by simp, by simp [hk, hlt, keyValid], by simp⟩
  · next hge =>
    obtain ⟨-, f, st, res, hd⟩ := finishInProgress_cases h
    exact ⟨by simp [hd.chan], by simp [hd.chan, hge], by simp [hd.chan]⟩

/-- Settles O34: each action of an edge moves what the transfer conditions of its state say. -/
theorem edgesMoveOneWordPerTransfer : Obligations.EdgesMoveOneWordPerTransfer := by
  intro s t h hrst he
  suffices hm : Moves s t (cmdTransfer s) (keyTransfer s) (rspTransfer s) from ⟨hm.cmdIn, hm.keyIn, hm.rspTaken⟩
  rw [edge] at he
  rcases nextAction_cases s with ⟨-, hup⟩ | ⟨w, rest, ha, -, hr, hd⟩ | ⟨ha, -, hwait⟩ | ⟨ha, -, hr, hp⟩ |
    ⟨w, rest, ha, hi, hw⟩
  · cases hrst.symm.trans hup
  all_goals rw [ha] at he
  · cases he
    have hpending : s.chan.rspOut ≠ [] := by simp [hr]
    have hrsp : rspTransfer s = true := by simp [rspTransfer, (rspValid_iff s).mpr ⟨hrst, hpending⟩, hd]
    rw [cmdTransfer_eq_false fun hi => hpending hi.no_response,
      keyTransfer_eq_false (h.no_command_of_response hpending), hrsp]
    exact ⟨rfl, rfl, by simp [hr]⟩
  · cases he
    rcases hwait with ⟨hpending, hd⟩ | ⟨hi, hc⟩
    · have hrsp : rspTransfer s = false := by rw [rspTransfer, hd, Bool.and_false]
      rw [cmdTransfer_eq_false fun hi => hpending hi.no_response,
        keyTransfer_eq_false (h.no_command_of_response hpending), hrsp]
      exact .refl s
    · have hcmd : cmdTransfer s = false := by simp [cmdTransfer_of_idle hi, cmdValid, hc]
      rw [hcmd, keyTransfer_eq_false hi.no_command, rspTransfer_eq_false hi.no_response]
      exact .refl s
  · obtain ⟨-, taken, hk⟩ := h.progress hp
    rw [if_pos (sequencerOk_of_progress hk)] at he
    have hkey : keyTransfer s = (keyValid s && decide (s.seq.keyIdx < s.seq.keyLen)) := by
      simp [keyTransfer, keyReady, hrst, hp]
    rw [cmdTransfer_eq_false fun hi => by simp [hi.no_command] at hp, hkey, rspTransfer_eq_false hr]
    exact keyEdge_moves he
  · obtain ⟨hcmd, hkey, hrsp⟩ := startCommand_moves he
    have hone : cmdTransfer s = true := by simp [cmdTransfer_of_idle hi, cmdValid, hw]
    rw [hone, keyTransfer_eq_false hi.no_command, rspTransfer_eq_false hi.no_response]
    exact ⟨by simpa [hw] using hcmd, hkey, hrsp⟩

/-! ### A sequence of whole commands (rules R66, R174, R177, R179) -/

/-- In a state with a sound filter no command stops: it waits, or it ends with an answer (rule R154). -/
theorem exec_answers {s : State} (hf : FilterInv s.cfg s.filter) (i : Instr) : ∃ t, exec i s = .next t := by
  have key {len : Word} (hi : i = .add len ∨ i = .contains len) : ∃ t, exec i s = .next t := by
    rw [exec_key_eq hi]
    by_cases hl : s.chan.keyIn.length < len.toNat
    · obtain ⟨t, ht, -⟩ := startKey_waits finishInProgress (op_of_key hi) hl
      exact ⟨t, ht⟩
    · obtain ⟨u, hu, -, -, -, -, hufil, -⟩ := startKey_done finishInProgress (op_of_key hi) hl
      rw [hu]
      cases hc : s.filter.constructed with
      | false =>
        obtain ⟨t, ht, -⟩ := finishInProgress_none (s := u) (hufil ▸ hc)
        exact ⟨t, ht⟩
      | true =>
        obtain ⟨t, ht, -⟩ := finishInProgress_ok (s := u) (hufil ▸ hc) (hufil ▸ hf.size_ne hc)
        exact ⟨t, ht⟩
  cases i with
  | create size =>
    rcases create_cases size s with rfl | hc | hc
    · exact (execCreate_zero s).imp fun _ h => h.1
    · exact (execCreate_capacity hc).imp fun _ h => h.1
    · exact (execCreate_ok hc).imp fun _ h => h.1
  | clear x =>
    cases hc : s.filter.constructed with
    | false => exact (execClear_none x hc).imp fun _ h => h.1
    | true => exact (execClear_ok x hc).imp fun _ h => h.1
  | add len => exact key (.inl rfl)
  | contains len => exact key (.inr rfl)

/-- The core waits for a command, and the host for no response: nothing is on the channels. -/
structure AtRest (s : State) : Prop where
  inv : Inv s
  idle : Idle s
  rspReady : s.chan.rspReady = true
  cmdIn : s.chan.cmdIn = []
  keyIn : s.chan.keyIn = []

theorem runEvents_append {es : List Event} {s u : State} (h : runEvents es s = .next u) (es' : List Event) :
    runEvents (es ++ es') s = runEvents es' u := by
  induction es generalizing s with
  | nil => cases h; rfl
  | cons e es ih =>
    cases e with
    | host m => exact ih h
    | step =>
      rw [runEvents] at h
      rw [List.cons_append, runEvents]
      cases hs : step s with
      | next t => rw [hs] at h; exact ih h
      | fault r => rw [hs] at h; cases h
      | refused r => rw [hs] at h; cases h

/-- A well-formed whole command takes its key bytes and leaves nothing but one response. -/
theorem transact_answers {c : Transaction} (hc : c.wellFormed = true) {s : State} (h : AtRest s) :
    ∃ t w, transact c s = .next t ∧ Inv t ∧ t.inProgress = false ∧ t.chan = { s.chan with rspOut := [w] } := by
  have hoffer : Inv ((HostMove.offerKey c.key).apply s) := h.inv.setChan (.inr rfl)
  have hkey : ((HostMove.offerKey c.key).apply s).chan.keyIn = c.key := by simp [HostMove.apply, h.keyIn]
  have hlen : c.key.length = c.instr.keyBytes := beq_iff_eq.mp hc
  obtain ⟨t, ht⟩ := exec_answers hoffer.filter c.instr
  have hinv : Inv t := exec_keeps_inv hoffer h.idle.no_response ht
  rcases exec_ends ht with ⟨-, hl⟩ | ⟨f, st, res, a, b, hd, -, -⟩
  · rw [hkey, hlen] at hl
    exact absurd hl (Nat.lt_irrefl _)
  · have hchan : t.chan = { s.chan with rspOut := [rspWord st res a b] } := by
      rw [hd.chan, hkey, List.drop_of_length_le hlen.le, ← h.keyIn]
      simp [HostMove.apply, h.idle.no_response]
    exact ⟨t, _, ht, hinv, hd.finished, hchan⟩

/-- The first step after a whole command is offered runs it. -/
theorem step_of_offered (c : Transaction) {s : State} (h : AtRest s) :
    step ((HostMove.offerKey c.key).apply ((HostMove.offerCommand (encode c.instr)).apply s)) = transact c s := by
  have hidle : Idle ((HostMove.offerKey c.key).apply ((HostMove.offerCommand (encode c.instr)).apply s)) :=
    ⟨h.idle.no_reset, h.idle.no_command, h.idle.no_response⟩
  have hword : s.chan.cmdIn ++ [encode c.instr] = [encode c.instr] := by rw [h.cmdIn, List.nil_append]
  rw [step_of_accept hidle hword, decode_encode, transact]
  simp [HostMove.apply, popCommand, State.setChan, h.cmdIn]

/-- A whole command is run by the first of its two steps, and its response handed over by the second. -/
theorem runEvents_transaction {c : Transaction} (hc : c.wellFormed = true) {s : State} (h : AtRest s) :
    ∃ u w, runEvents c.events s = .next u ∧ AtRest u ∧ u.chan.rspTaken = s.chan.rspTaken ++ [w] := by
  obtain ⟨t, w, ht, hinv, hdone, hchan⟩ := transact_answers hc h
  have hover : step t = .next (handOver w [] t) :=
    step_of_handOver (by rw [hchan]; exact h.idle.no_reset) (by rw [hchan]) (by rw [hchan]; exact h.rspReady)
  refine ⟨handOver w [] t, w, ?run, ?rest, by simp [hchan]⟩
  case run => simp only [Transaction.events, runEvents, step_of_offered c h, ht, hover]
  case rest =>
    exact
      { inv := hinv.setChan (.inl rfl)
        idle := ⟨by simpa [hchan] using h.idle.no_reset, by simpa using hdone, by simp⟩
        rspReady := by simpa [hchan] using h.rspReady
        cmdIn := by simpa [hchan] using h.cmdIn
        keyIn := by simpa [hchan] using h.keyIn }

/-- A sequence of well-formed whole commands leads from rest to rest with one response for each. -/
theorem runEvents_transactions (ts : List Transaction) {s : State} (h : AtRest s)
    (hwf : ∀ t ∈ ts, t.wellFormed = true) :
    ∃ u answers, runEvents (ts.flatMap Transaction.events) s = .next u ∧ AtRest u ∧
      u.chan.rspTaken = s.chan.rspTaken ++ answers ∧ answers.length = ts.length := by
  induction ts generalizing s with
  | nil => exact ⟨s, [], rfl, h, (List.append_nil _).symm, rfl⟩
  | cons c ts ih =>
    obtain ⟨hc, hts⟩ := List.forall_mem_cons.mp hwf
    obtain ⟨t, w, hrun, ht, htaken⟩ := runEvents_transaction hc h
    obtain ⟨u, answers, hu, hrest, hanswers, hlen⟩ := ih ht hts
    refine ⟨u, w :: answers, ?_, hrest, ?_, by simp [hlen]⟩
    · rw [List.flatMap_cons, runEvents_append hrun, hu]
    · rw [hanswers, htaken, List.append_assoc, List.singleton_append]

/-- Settles O49, by induction on the sequence (`runEvents_transactions`). -/
theorem everyCommandSequenceCompletes : Obligations.EveryCommandSequenceCompletes := by
  intro ts s hinv hidle hready hcmd hkey hwf
  obtain ⟨u, answers, hu, hrest, htaken, hlen⟩ := runEvents_transactions ts ⟨hinv, hidle, hready, hcmd, hkey⟩ hwf
  exact ⟨u, answers, hu, hrest.inv, hrest.idle, hrest.cmdIn, hrest.keyIn, htaken, hlen⟩

end Sys2Proof.Machine
end

-- ==== The FNV family (40_fnv_hash_pipe.md): the two micro-operations of the unit ====
section
/-! The obligation of 40_fnv_hash_pipe.md. Both micro-operations are one write of `FNV_ACC` (`State.setFnvAcc`); what
FNV_ABSORB writes is said in Lean's bit-vector operations by `fnvStep_eq`. -/

namespace Sys2Proof.Machine

/-- One FNV step in Lean's bit-vector operations: the product wraps before the exclusive-or (rule R82). -/
theorem fnvStep_eq (acc sym : Word) : fnvStep acc sym = (acc * 37#32) ^^^ sym := by
  rw [fnvStep, mul32_eq, xor32, fnvPrime]

/-- Settles O9: each micro-operation writes `FNV_ACC` alone, FNV_ABSORB the value of `fnvStep_eq`. -/
theorem fnvUnitMultipliesThenXors : Obligations.FnvUnitMultipliesThenXors := by
  intro s sym
  constructor
  case left => rfl
  case right => rw [fnvAbsorb, State.setFnvAcc, fnvStep_eq]

end Sys2Proof.Machine
end

-- ==== The Murmur family (41_murmur3_hash_pipe.md): the chunk words, the length, the four micro-operations ====
section
/-! The obligations of 41_murmur3_hash_pipe.md. A missing byte is a zero byte in its lane (`byteInLane_zero`): so each
chunk word, full or partial, is the join of four lanes (`chunkWords_of_ne_nil`), and a zero byte added to a partial
chunk is not seen in it. The mix and the finalisation are said in Lean's bit-vector operations by `mmMix_eq` and
`mmFmix_eq`. -/

namespace Sys2Proof.Machine

/-! ### The chunk words (rules R92, R93) -/

/-- A zero byte leaves its lane empty (rule R92). -/
@[simp] theorem byteInLane_zero (lane : Nat) : byteInLane 0#8 lane = 0#32 := by
  simp [byteInLane, zext32]

/-- Four bytes in their lanes are the sum of their values there. -/
theorem fourLanes_toNat (b0 b1 b2 b3 : Byte) :
    (byteInLane b0 0 ||| byteInLane b1 1 ||| byteInLane b2 2 ||| byteInLane b3 3).toNat =
      b0.toNat * 2 ^ 24 + b1.toNat * 2 ^ 16 + b2.toNat * 2 ^ 8 + b3.toNat := by
  have k0 : (byteInLane b0 0).toNat = b0.toNat * 2 ^ 24 := byteInLane_toNat b0 0
  have k1 : (byteInLane b0 0 ||| byteInLane b1 1).toNat = b0.toNat * 2 ^ 24 + b1.toNat * 2 ^ 16 := by
    rw [or_byteInLane_toNat (by omega) (by decide), k0]
  have k2 : (byteInLane b0 0 ||| byteInLane b1 1 ||| byteInLane b2 2).toNat =
      b0.toNat * 2 ^ 24 + b1.toNat * 2 ^ 16 + b2.toNat * 2 ^ 8 := by
    rw [or_byteInLane_toNat (by omega) (by decide), k1]
  rw [or_byteInLane_toNat (by omega) (by decide), k2]
  omega

/-- The first chunk word of a key that is not empty, full or partial: the first four bytes in their lanes, a missing one
as 0. -/
theorem chunkWords_of_ne_nil {key : List Byte} (h : key ≠ []) :
    chunkWords key =
      (byteInLane (key.getD 0 0#8) 0 ||| byteInLane (key.getD 1 0#8) 1 ||| byteInLane (key.getD 2 0#8) 2 |||
        byteInLane (key.getD 3 0#8) 3) :: chunkWords (key.drop 4) := by
  match key with
  | [b0] => simp [chunkWords]
  | [b0, b1] => simp [chunkWords]
  | [b0, b1, b2] => simp [chunkWords]
  | b0 :: b1 :: b2 :: b3 :: rest => rfl

/-- A key of `L` bytes has `ceil(L / 4)` chunk words (rule R93). -/
theorem chunkWords_length (key : List Byte) : (chunkWords key).length = (key.length + 3) / 4 := by
  induction key using chunkWords.induct with
  | case1 => rfl
  | case2 b0 => simp [chunkWords]
  | case3 b0 b1 => simp [chunkWords]
  | case4 b0 b1 b2 => simp [chunkWords]
  | case5 b0 b1 b2 b3 rest ih => simp only [chunkWords, List.length_cons, ih]; omega

theorem ne_nil_of_chunkWord {key : List Byte} {j : Nat} {k : Word} (hk : (chunkWords key)[j]? = some k) :
    key ≠ [] := by
  rintro rfl
  simp [chunkWords] at hk

/-- Chunk word `j` is the sum of key bytes `4j` to `4j + 3` in their lanes (rule R93). -/
theorem chunkWords_toNat {key : List Byte} {j : Nat} {k : Word} (hk : (chunkWords key)[j]? = some k) :
    k.toNat = (key.getD (4 * j) 0#8).toNat * 2 ^ 24 + (key.getD (4 * j + 1) 0#8).toNat * 2 ^ 16 +
      (key.getD (4 * j + 2) 0#8).toNat * 2 ^ 8 + (key.getD (4 * j + 3) 0#8).toNat := by
  induction j generalizing key with
  | zero =>
    rw [chunkWords_of_ne_nil (ne_nil_of_chunkWord hk)] at hk
    obtain rfl := Option.some.inj hk
    exact fourLanes_toNat ..
  | succ j ih =>
    rw [chunkWords_of_ne_nil (ne_nil_of_chunkWord hk), List.getElem?_cons_succ] at hk
    have hj : 4 * (j + 1) = 4 + 4 * j := by omega
    rw [ih hk, hj]
    simp only [List.getD_eq_getElem?_getD, List.getElem?_drop, Nat.add_assoc]

/-- Settles O12: the number of the words is `chunkWords_length`, the value of each `chunkWords_toNat`. -/
theorem chunkWordsCutTheKey : Obligations.ChunkWordsCutTheKey :=
  fun key => ⟨chunkWords_length key, fun _ _ => chunkWords_toNat⟩

/-- A zero byte added to a partial chunk changes no chunk word: it fills a lane that is 0 already. -/
theorem chunkWords_append_zero {key : List Byte} (h : key.length % 4 ≠ 0) :
    chunkWords (key ++ [0#8]) = chunkWords key := by
  induction key using chunkWords.induct with
  | case1 => exact absurd rfl h
  | case2 b0 => simp [chunkWords]
  | case3 b0 b1 => simp [chunkWords]
  | case4 b0 b1 b2 => simp [chunkWords]
  | case5 b0 b1 b2 b3 rest ih =>
    have hrest : rest.length % 4 ≠ 0 := by simp only [List.length_cons] at h; omega
    simp only [List.cons_append, chunkWords, ih hrest]

/-! ### The mix and the finalisation in bit-vector operations (rules R94, R96) -/

theorem mmScramble_eq (k : Word) : mmScramble k = ((k * 0xCC9E2D51#32).rotateLeft 15) * 0x1B873593#32 := by
  rw [mmScramble, mul32_eq, mul32_eq, rotl32_eq _ (by decide), mmC1, mmR1, mmC2]

theorem mmMix_eq (h k : Word) :
    mmMix h k =
      ((h ^^^ ((k * 0xCC9E2D51#32).rotateLeft 15) * 0x1B873593#32).rotateLeft 13) * 5#32 + 0xE6546B64#32 := by
  rw [mmMix, add32_eq, mul32_eq, rotl32_eq _ (by decide), xor32, mmScramble_eq, mmR2, mmM, mmN]

theorem mmFmix_eq (h len : Word) :
    mmFmix h len =
      (let f0 := h ^^^ len
       let f2 := (f0 ^^^ (f0 >>> 16)) * 0x85EBCA6B#32
       let f4 := (f2 ^^^ (f2 >>> 13)) * 0xC2B2AE35#32
       f4 ^^^ (f4 >>> 16)) := by
  simp only [mmFmix, mul32_eq, shr32_eq, xor32, mmF1, mmF2]

/-- A running hash equal to the length cancels, and 0 stays 0 through the rest of the finalisation (rule R96). -/
theorem mmFmix_self (h : Word) : mmFmix h h = 0#32 := by
  simp [mmFmix_eq]

/-- Settles O13: the chunk words are the same (`chunkWords_append_zero`), so the running hash is, and the lengths alone
differ. -/
theorem lengthAloneTellsZeroPaddedKeysApart : Obligations.LengthAloneTellsZeroPaddedKeysApart := by
  refine ⟨fun key hkey => ?_, mmFmix_self⟩
  have hwords := chunkWords_append_zero hkey
  refine ⟨hwords, rfl, ?_⟩
  rw [murmurHash3, hwords, List.length_append, List.length_singleton]

/-- Settles O10: each micro-operation writes the registers of its unit alone (`State.setMm`), MM_CHUNK the mix of
`mmMix_eq` and MM_FINAL the finalisation of `mmFmix_eq`. -/
theorem murmurUnitWritesItsRegisters : Obligations.MurmurUnitWritesItsRegisters := by
  intro s b len
  refine ⟨?init, fun _ => ?pack, fun _ _ => ?chunk, ?final⟩
  case init => rfl
  case pack =>
    have hnext : s.mm.cnt + 1#3 = BitVec.ofNat 3 (s.mm.cnt.toNat + 1) := by
      rw [BitVec.ofNat_add, BitVec.ofNat_toNat, BitVec.setWidth_eq]
    rw [mmPack, State.setMm, hnext, byteInLane, zext32]
  case chunk => rw [mmChunk, State.setMm, mmMix_eq]
  case final => rw [mmFinal, State.setMm, mmFmix_eq]

end Sys2Proof.Machine
end

-- ==== The indexer family (42_bloom_filter_indexer.md): the third hash, the three positions of a key ====
section
/-! The obligations of 42_bloom_filter_indexer.md. What IDX_DERIVE writes is `idxDerive_eq`, the positions of a key are
`positions_eq`; the third hash is said here in Lean's bit-vector operations and as a number. -/

namespace Sys2Proof.Machine

/-- The third hash in Lean's bit-vector operations: doubling and sum both wrap (rule R106). -/
theorem h3Of_eq (h1 h2 : Word) : h3Of h1 h2 = h1 + 2#32 * h2 := by
  rw [h3Of, add32_eq, mul32_eq, BitVec.mul_comm]

/-- Rule R106 on numbers: wrapping once at the end gives the same third hash. -/
theorem h3Of_toNat (h1 h2 : Word) : (h3Of h1 h2).toNat = (h1.toNat + 2 * h2.toNat) % 2 ^ 32 := by
  rw [h3Of_eq, BitVec.toNat_add, BitVec.toNat_mul, BitVec.toNat_ofNat, Nat.mod_eq_of_lt (by decide : 2 < 2 ^ 32),
    Nat.add_mod_mod]

/-- IDX_DERIVE answers only where there is something to divide by: the precondition of rule R107. -/
theorem size_ne_zero_of_idxDerive {a b : Word} {s t : State} (h : idxDerive a b s = some t) :
    s.filter.size ≠ 0#32 := by
  intro hs
  rw [idxDerive_none a b hs] at h
  exact Option.some_ne_none t h.symm

/-- Settles O16: an answer means `SIZE > 0`, so `idxDerive_eq` and `positions_eq` give the same three remainders, and a
remainder by `SIZE` is a cell (`cellExists_umod`). -/
theorem positionsAreCellsOfTheKey : Obligations.PositionsAreCellsOfTheKey := by
  intro s t key hc hd
  have hs : s.filter.size ≠ 0#32 := size_ne_zero_of_idxDerive hd
  rw [idxDerive_eq _ _ hs, Option.some.injEq] at hd
  subst hd
  simp only [State.setIdx_idx]
  refine ⟨positions_eq key hs, BitVec.toNat_umod, BitVec.toNat_umod, ?third,
    cellExists_umod _ hc hs, cellExists_umod _ hc hs, cellExists_umod _ hc hs⟩
  case third => rw [BitVec.toNat_umod, h3Of_toNat]

/-- Settles O15: `idxDerive_eq` with the third hash of `h3Of_eq`; IDX_DERIVE writes the indexer's registers alone
(`State.setIdx`). -/
theorem indexerReducesThreeHashes : Obligations.IndexerReducesThreeHashes := by
  intro s a b hs
  rw [idxDerive_eq a b hs, h3Of_eq, State.setIdx]

end Sys2Proof.Machine
end

-- ==== The bit array family (43_bloom_bitarray_ctrl.md): BA_TEST3, BA_SET3, BA_CLEAR_ALL ====
section
/-! The obligations of 43_bloom_bitarray_ctrl.md. What each operation answers is `baTest3_eq`, `baSet3_eq` and
`baClearAll_cells`; here stand the ports of the three bits and what a cell reads as after BA_SET3. -/

namespace Sys2Proof.Machine

/-! ### BA_TEST3 (rule R116) -/

theorem extract_baBits_first (b1 b2 b3 : Bit) : (baBits b1 b2 b3).extractLsb' 0 1 = b1 := by
  revert b1 b2 b3; decide

theorem extract_baBits_second (b1 b2 b3 : Bit) : (baBits b1 b2 b3).extractLsb' 1 1 = b2 := by
  revert b1 b2 b3; decide

theorem extract_baBits_third (b1 b2 b3 : Bit) : (baBits b1 b2 b3).extractLsb' 2 1 = b3 := by
  revert b1 b2 b3; decide

/-- Settles O18: each port is the bit of its cell (`extract_baBits_first` and its two siblings), and `HIT` is the AND of
the three (`baHit_eq_one`). -/
theorem testThreeIsTheAnd : Obligations.TestThreeIsTheAnd := by
  intro s p1 p2 p3 h1 h2 h3
  refine ⟨_, baTest3_eq h1 h2 h3, ?_⟩
  rw [cellRead_eq h1, cellRead_eq h2, cellRead_eq h3, extract_baBits_first, extract_baBits_second, extract_baBits_third]
  refine ⟨rfl, rfl, rfl, ?_⟩
  simp only [Option.some.injEq]
  exact baHit_eq_one _ _ _

/-! ### BA_SET3 (rules R117, R120) -/

section SetThree

variable {s t : State} {p1 p2 p3 : Word} (hw : Memory.wf s.filter.cells) (h1 : cellExists p1 s = true)
  (h2 : cellExists p2 s = true) (h3 : cellExists p3 s = true)

include hw h1 h2 h3

/-- The three cells read 1 after BA_SET3, and every other cell, existing or not, as before. -/
theorem cellRead_of_setThree
    (ht : t.filter = { s.filter with cells := setThree s.filter.cells p1 p2 p3 }) (i : Word) :
    cellRead i t = if i = p1 ∨ i = p2 ∨ i = p3 then some 1#1 else cellRead i s := by
  have hex : cellExists i t = cellExists i s := by simp [cellExists, ht]
  by_cases hi : i = p1 ∨ i = p2 ∨ i = p3
  · have his : cellExists i s = true := by obtain rfl | rfl | rfl := hi <;> assumption
    rw [if_pos hi, cellRead_eq (hex.trans his), ht, read_setThree hw]
    simp only [BitVec.toNat_inj, if_pos hi]
  · rw [if_neg hi, cellRead, cellRead, hex, ht, read_setThree hw]
    simp only [BitVec.toNat_inj, if_neg hi]

/-- BA_SET3 of cells that BA_SET3 has set changes nothing. -/
theorem baSet3_baSet3 (ht : baSet3 p1 p2 p3 s = some t) : baSet3 p1 p2 p3 t = some t := by
  rw [baSet3_eq h1 h2 h3] at ht
  cases ht
  rw [baSet3_eq (by simpa [cellExists] using h1) (by simpa [cellExists] using h2) (by simpa [cellExists] using h3)]
  simp [State.setFilter, setThree_setThree hw]

end SetThree

/-- Settles O19: BA_SET3 is one write of the cells (`baSet3_eq`), which `cellRead_of_setThree` reads back,
`FilterInv.setThree` keeps well formed and `baSet3_baSet3` repeats. -/
theorem setThreeSetsExactlyItsCells : Obligations.SetThreeSetsExactlyItsCells := by
  intro s p1 p2 p3 hinv h1 h2 h3
  have hset := baSet3_eq h1 h2 h3
  obtain ⟨hc, hp1⟩ := (cellExists_iff p1 s).mp h1
  obtain ⟨-, hp2⟩ := (cellExists_iff p2 s).mp h2
  obtain ⟨-, hp3⟩ := (cellExists_iff p3 s).mp h3
  refine ⟨_, hset, cellRead_of_setThree hinv.canonical h1 h2 h3 rfl, rfl, ?inv, ?again⟩
  case inv => exact hinv.setThree hc hp1 hp2 hp3
  case again => exact baSet3_baSet3 hinv.canonical h1 h2 h3 hset

/-! ### BA_CLEAR_ALL (rule R118) -/

/-- Settles O20: after a bulk clear no cell is listed (`baClearAll_cells`), and an unlisted cell holds 0. -/
theorem clearAllZeroesEveryCellBelow : Obligations.ClearAllZeroesEveryCellBelow := by
  intro s n
  refine ⟨fun i _ => ?_, rfl⟩
  rw [baClearAll_cells]
  rfl

end Sys2Proof.Machine
end

-- ==== The commands family (44_commands.md): the clocked view, the key phase, the four commands, the filter's life ====
section
/-! The obligations of 44_commands.md. The clocked view takes the bytes of the key loop one an edge. Each command is
said once on the filter state (`withKey`, `keyStatus`, `membership`); what a command sequence does to a filter is read
off. -/

namespace Sys2Proof.Machine

/-! ### The clocked view (rules R130, R177) -/

theorem edges_one (s : State) : edges 1 s = edge s := by
  simp only [edges]
  cases edge s <;> rfl

theorem edges_succ {s t : State} (h : edge s = .next t) (n : Nat) : edges (n + 1) s = edges n t := by
  rw [edges, h]

/-- The core is inside a key phase, its sequencer sound: a step and an edge both go on with it. -/
structure InKeyPhase (s : State) : Prop where
  no_reset : s.chan.rst = false
  no_response : s.chan.rspOut = []
  in_progress : s.inProgress = true
  sequencer : sequencerOk s = true

theorem InKeyPhase.edge_eq {s : State} (h : InKeyPhase s) : edge s = keyEdge s := by
  rw [edge, nextAction_resume h.no_reset h.no_response h.in_progress]
  exact if_pos h.sequencer

theorem sequencerOk_iff (s : State) : sequencerOk s = true ↔
    (s.seq.cmdOp = opAdd ∨ s.seq.cmdOp = opContains) ∧ s.mm.cnt ≤ 3#3 ∧ s.seq.keyIdx ≤ s.seq.keyLen := by
  simp only [sequencerOk, Bool.and_eq_true, Bool.or_eq_true, beq_iff_eq, decide_eq_true_eq, and_assoc]

/-- A byte more packed leaves a partial chunk: a full one is mixed in at once (rule R95). -/
theorem packRegs_cnt_le {r : MurmurRegs} (h : r.cnt ≤ 3#3) (b : Byte) : (packRegs r b).cnt ≤ 3#3 := by
  have hnext : ∀ c : BitVec 3, c ≤ 3#3 → c + 1#3 ≠ 4#3 → c + 1#3 ≤ 3#3 := by decide
  simp only [packRegs]
  split
  · exact (by decide : 0#3 ≤ 3#3)
  · next hfull => exact hnext _ h hfull

/-- A byte that is still wanted keeps the sequencer's preconditions (rules R28, R92). -/
theorem sequencerOk_takeByte {s : State} (h : sequencerOk s = true) (hlt : s.seq.keyIdx < s.seq.keyLen) (b : Byte) :
    sequencerOk (takeByte b s) = true := by
  obtain ⟨hop, hcnt, -⟩ := (sequencerOk_iff s).mp h
  refine (sequencerOk_iff _).mpr ⟨by simpa using hop, ?count, ?index⟩
  case count => rw [takeByte_mm]; exact packRegs_cnt_le hcnt b
  case index => rw [takeByte_seq]; bv_omega

/-- The edge inside the key phase that transfers the byte `b` (rules R61, R135). -/
theorem keyEdge_byte {s : State} {b : Byte} {bs : List Byte} (hlt : s.seq.keyIdx < s.seq.keyLen)
    (hk : s.chan.keyIn = b :: bs) : keyEdge s = .next (takeByte b (s.setChan { s.chan with keyIn := bs })) := by
  simp only [keyEdge, if_pos hlt, keyNext, hk]

theorem InKeyPhase.takeByte {s : State} (h : InKeyPhase s) (hlt : s.seq.keyIdx < s.seq.keyLen) (b : Byte)
    (bs : List Byte) : InKeyPhase (takeByte b (s.setChan { s.chan with keyIn := bs })) where
  no_reset := by simpa using h.no_reset
  no_response := by simpa using h.no_response
  in_progress := by simpa using h.in_progress
  sequencer := sequencerOk_takeByte (s := s.setChan { s.chan with keyIn := bs }) h.sequencer hlt b

/-- The key phase after a byte transferred by itself is the key phase that takes it in its loop. -/
theorem runKey_takeByte (finish : State → Host.Outcome State Fault Refusal) {s : State} {b : Byte} {bs : List Byte}
    (hlt : s.seq.keyIdx < s.seq.keyLen) (hk : s.chan.keyIn = b :: bs) :
    runKey finish (takeByte b (s.setChan { s.chan with keyIn := bs })) = runKey finish s := by
  have hloop : keyLoop bs (takeByte b (s.setChan { s.chan with keyIn := bs })) = keyLoop (b :: bs) s := by
    rw [takeByte_setChan, ← takeByte_chan b s, keyLoop_setKeyIn, keyLoop, if_pos hlt]
  simp only [runKey, takeByte_chan, State.setChan_chan, hloop, hk]

theorem keyLoop_nil_self {s : State} (hk : s.chan.keyIn = []) : keyLoop [] s = s := by
  rw [keyLoop, ← hk]
  rfl

/-- With the whole key taken one edge finishes the command. -/
theorem InKeyPhase.edges_finish {s : State} (h : InKeyPhase s) (hge : ¬ s.seq.keyIdx < s.seq.keyLen) :
    edges 1 s = runKey finishInProgress s := by
  simp only [edges_one, h.edge_eq, keyEdge, runKey, keyLoop_stay hge, if_neg hge]

/-- Some number of edges does what the whole key phase does: one for each byte it takes, and one more to finish. -/
theorem InKeyPhase.edges_eq_runKey {s : State} (h : InKeyPhase s) : ∃ n, edges n s = runKey finishInProgress s := by
  induction hk : s.chan.keyIn generalizing s with
  | nil =>
    by_cases hlt : s.seq.keyIdx < s.seq.keyLen
    · exact ⟨0, by simp only [edges, runKey, hk, keyLoop_nil_self hk, if_pos hlt]⟩
    · exact ⟨1, h.edges_finish hlt⟩
  | cons b bs ih =>
    by_cases hlt : s.seq.keyIdx < s.seq.keyLen
    · obtain ⟨n, hn⟩ := ih (h.takeByte hlt b bs) (by simp)
      refine ⟨n + 1, ?_⟩
      rw [edges_succ (h.edge_eq.trans (keyEdge_byte hlt hk)), hn, runKey_takeByte _ hlt hk]
    · exact ⟨1, h.edges_finish hlt⟩

theorem InKeyPhase.startKey {s : State} (hi : Idle s) {op : BitVec 2} (hop : op = opAdd ∨ op = opContains) (len : Word)
    (rest : List CmdWord) : InKeyPhase (startKey op len (popCommand rest s)) where
  no_reset := by simpa using hi.no_reset
  no_response := by simpa using hi.no_response
  in_progress := by simp
  sequencer := sequencerOk_of_progress (startKey_progress hop len _)

/-- A command in progress: where its sequencer is not sound both views stop, else some edges end its key phase. -/
theorem edges_of_resume {s : State} (hrst : s.chan.rst = false) (hr : s.chan.rspOut = []) (hp : s.inProgress = true) :
    ∃ n, edges n s = step s := by
  rw [step_of_resume hrst hr hp, resumeCommand]
  by_cases hok : sequencerOk s = true
  · rw [if_pos hok]
    exact InKeyPhase.edges_eq_runKey ⟨hrst, hr, hp, hok⟩
  · exact ⟨1, by simp only [edges_one, edge, nextAction_resume hrst hr hp, if_neg hok]⟩

/-- A command word: CREATE and CLEAR take one edge, ADD and CONTAINS one to start and those of their key phase. -/
theorem edges_of_accept {s : State} (hi : Idle s) {w : CmdWord} {rest : List CmdWord} (hw : s.chan.cmdIn = w :: rest) :
    ∃ n, edges n s = step s := by
  rw [step_of_accept hi hw]
  have hedge : edge s = startCommand (decode w) (popCommand rest s) := by rw [edge, nextAction_accept hi hw]
  have key {i : Instr} {len : Word} (hkey : i = .add len ∨ i = .contains len)
      (hstart : edge s = .next (Machine.startKey i.op len (popCommand rest s))) :
      ∃ n, edges n s = exec i (popCommand rest s) := by
    obtain ⟨n, hn⟩ := (InKeyPhase.startKey hi (op_of_key hkey) len rest).edges_eq_runKey
    exact ⟨n + 1, by rw [edges_succ hstart, hn, exec_key_eq hkey]⟩
  cases hd : decode w with
  | create size => exact ⟨1, by rw [edges_one, hedge, hd]; rfl⟩
  | clear x => exact ⟨1, by rw [edges_one, hedge, hd]; rfl⟩
  | add len => exact key (.inl rfl) (by rw [hedge, hd]; rfl)
  | contains len => exact key (.inr rfl) (by rw [hedge, hd]; rfl)

/-- Settles O50: an edge and a step differ only where a key phase goes on (`edges_of_resume`) or may begin
(`edges_of_accept`). -/
theorem edgesReachEveryStep : Obligations.EdgesReachEveryStep := by
  intro s
  rcases nextAction_cases s with ⟨ha, -⟩ | ⟨w, rest, ha, -⟩ | ⟨ha, -⟩ | ⟨-, hrst, hr, hp⟩ | ⟨w, rest, -, hi, hw⟩
  · exact ⟨1, by rw [edges_one, edge, step, ha]⟩
  · exact ⟨1, by rw [edges_one, edge, step, ha]⟩
  · exact ⟨1, by rw [edges_one, edge, step, ha]⟩
  · exact edges_of_resume hrst hr hp
  · exact edges_of_accept hi hw

/-! ### The key phase (rule R135) -/

/-- Settles O14: the loop takes the `KEY_LEN` bytes of the key and leaves the rest (`keyLoop_progress`), and the end of
the phase leaves both hashes in the units (`endKey_hashes`). -/
theorem keyPhaseComputesBothHashes : Obligations.KeyPhaseComputesBothHashes := by
  intro s op len key rest hop hlen hin
  obtain ⟨hp, hchan⟩ := keyLoop_progress (startKey_progress hop len s) s.chan.keyIn
  have hn : (startKey op len s).seq.keyLen.toNat - ([] : List Byte).length = key.length := by simp [hlen]
  rw [hn, hin, List.take_left, List.nil_append] at hp
  rw [hn, hin, List.drop_left] at hchan
  obtain ⟨hfnv, hmm⟩ := endKey_hashes hp (by simpa using hlen)
  refine ⟨_, rfl, by rwa [hin], by rwa [hin], ?index, by simp, ?chan, by simp, by simp, by simp⟩
  case index => rw [hin, endKey_seq]; exact BitVec.eq_of_toNat_eq (hp.idx.trans hlen)
  case chan => rw [hin, endKey_chan, hchan, startKey_chan]

/-! ### A filter with no cell set (rules R118, R131, R134, R139) -/

theorem cellRead_of_no_cells {s : State} (hc : s.filter.constructed = true) (h0 : s.filter.cells = []) (i : Word) :
    cellRead i s = if i.toNat < s.filter.size.toNat then some 0#1 else none := by
  simp only [cellRead, cellExists_iff, hc, h0, true_and]
  rfl

theorem not_keyPresent_of_no_cells {s : State} (h0 : s.filter.cells = []) (key : List Byte) : ¬ KeyPresent key s := by
  rintro ⟨p1, p2, p3, -, h1, -⟩
  rw [cellRead_eq_one_iff, h0] at h1
  exact absurd h1.2 (by decide : ¬ (0#1 = 1#1))

/-- Settles O21: CREATE goes one of three ways (`create_cases`), and each is one equation. -/
theorem createConstructsOrRefuses : Obligations.CreateConstructsOrRefuses := by
  intro s size
  refine ⟨rfl, rfl, ?_⟩
  rcases create_cases size s with rfl | hcap | hok
  · obtain ⟨t, ht, hd⟩ := execCreate_zero s
    exact ⟨t, ht, by rw [hd.chan], hd.frame, fun _ => ⟨hd.answered, hd.filter⟩, fun h => absurd h (Nat.not_lt_zero _),
      fun h => absurd rfl h⟩
  · obtain ⟨t, ht, hd⟩ := execCreate_capacity hcap
    refine ⟨t, ht, by rw [hd.chan], hd.frame, ?_, fun _ => ⟨hd.answered, hd.filter⟩, fun _ h => absurd hcap h.not_gt⟩
    rintro rfl
    exact absurd hcap (Nat.not_lt_zero _)
  · obtain ⟨t, ht, hd⟩ := execCreate_ok hok
    have h0 : t.filter.cells = [] := by rw [hd.filter]
    have hread := cellRead_of_no_cells (s := t) (by rw [hd.filter]) h0
    simp only [hd.filter] at hread
    exact ⟨t, ht, by rw [hd.chan], hd.frame, fun h => absurd h hok.1, fun h => absurd hok.2 h.not_ge,
      fun _ _ => ⟨hd.answered, by rw [hd.filter], by rw [hd.filter], hread, not_keyPresent_of_no_cells h0⟩⟩

/-- Settles O24: the argument of CLEAR enters no equation; cleared cells read 0 (`cellRead_of_no_cells`). -/
theorem clearZeroesEveryCell : Obligations.ClearZeroesEveryCell := by
  intro s ignored
  refine ⟨rfl, rfl, ?_⟩
  cases hc : s.filter.constructed with
  | false =>
    obtain ⟨t, ht, hd⟩ := execClear_none ignored hc
    exact ⟨t, ht, by rw [hd.chan], hd.frame, by rw [hd.filter], by rw [hd.filter, hc],
      fun _ => ⟨hd.answered, hd.filter⟩, Bool.noConfusion⟩
  | true =>
    obtain ⟨t, ht, hd⟩ := execClear_ok ignored hc
    have hread := cellRead_of_no_cells (s := t) (by rw [hd.filter, hc]) (by rw [hd.filter])
    simp only [hd.filter] at hread
    exact ⟨t, ht, by rw [hd.chan], hd.frame, by rw [hd.filter], by rw [hd.filter, hc], Bool.noConfusion,
      fun _ => ⟨hd.answered, hread⟩⟩

/-! ### ADD and CONTAINS of a whole key, in terms of the filter state (rules R132, R133) -/

/-- The filter state after an ADD of the key: without a filter the same, else with the key's three cells set. -/
def withKey (f : Filter) (key : List Byte) : Filter :=
  if f.constructed then withThree f (fnvHash key) (murmurHash3 key) else f

/-- The status that answers ADD and CONTAINS. -/
def keyStatus (f : Filter) : Status := if f.constructed then .ok else .notConstructed

/-- The `RESULT` that answers a CONTAINS of the key: without a filter 0, else the AND of the key's three cells. -/
def membership (f : Filter) (key : List Byte) : Bit :=
  if f.constructed then andThree f (fnvHash key) (murmurHash3 key) else 0#1

theorem keyStatus_of_constructed {f : Filter} (hc : f.constructed = true) : keyStatus f = .ok := if_pos hc

theorem keyStatus_of_none {f : Filter} (hc : f.constructed = false) : keyStatus f = .notConstructed := by
  simp [keyStatus, hc]

theorem withKey_of_none {f : Filter} (hc : f.constructed = false) (key : List Byte) : withKey f key = f := by
  simp [withKey, hc]

theorem withKey_of_constructed {f : Filter} (hc : f.constructed = true) (key : List Byte) :
    withKey f key = withThree f (fnvHash key) (murmurHash3 key) := if_pos hc

theorem membership_of_none {f : Filter} (hc : f.constructed = false) (key : List Byte) : membership f key = 0#1 := by
  simp [membership, hc]

theorem membership_of_constructed {f : Filter} (hc : f.constructed = true) (key : List Byte) :
    membership f key = andThree f (fnvHash key) (murmurHash3 key) := if_pos hc

theorem keptOrSet_withKey (f : Filter) (key : List Byte) : KeptOrSet f (withKey f key) := by
  cases hc : f.constructed with
  | false => exact .inl (withKey_of_none hc key)
  | true => exact .inr ⟨hc, _, _, withKey_of_constructed hc key⟩

section WholeKey

variable {s : State} {key rest : List Byte} {len : Word}

/-- ADD with its whole key on the channel, with or without a filter (rule R132). -/
theorem execAdd_done (hf : FilterInv s.cfg s.filter) (hlen : key.length = len.toNat)
    (hin : s.chan.keyIn = key ++ rest) :
    ∃ t, execAdd len s = .next t ∧
      Done s t (withKey s.filter key) rest (keyStatus s.filter) 0#1 (fnvHash key) (murmurHash3 key) := by
  cases hc : s.filter.constructed with
  | false => rw [withKey_of_none hc, keyStatus_of_none hc]; exact execAdd_none hlen hin hc
  | true =>
    rw [withKey_of_constructed hc, keyStatus_of_constructed hc]
    exact execAdd_ok hlen hin hc (hf.size_ne hc)

/-- CONTAINS with its whole key on the channel, with or without a filter (rule R133). -/
theorem execContains_done (hf : FilterInv s.cfg s.filter) (hlen : key.length = len.toNat)
    (hin : s.chan.keyIn = key ++ rest) :
    ∃ t, execContains len s = .next t ∧
      Done s t s.filter rest (keyStatus s.filter) (membership s.filter key) (fnvHash key) (murmurHash3 key) := by
  cases hc : s.filter.constructed with
  | false => rw [membership_of_none hc, keyStatus_of_none hc]; exact execContains_none hlen hin hc
  | true =>
    rw [membership_of_constructed hc, keyStatus_of_constructed hc]
    exact execContains_ok hlen hin hc (hf.size_ne hc)

/-- A command that is offered its key bytes ends on the channels as they were before the offer. -/
theorem Done.of_offerKey {t : State} {f : Filter} {st : Status} {res : Bit} {a b : Word}
    (h : Done ((HostMove.offerKey key).apply s) t f rest st res a b) : Done s t f rest st res a b :=
  ⟨h.cfg, h.filter, h.finished, h.chan, h.count, h.fresh⟩

theorem offerKey_keyIn (hin : s.chan.keyIn = []) : ((HostMove.offerKey key).apply s).chan.keyIn = key ++ [] := by
  simp [HostMove.apply, hin]

/-- The ADD of a key as a whole command (rules R69, R132). -/
theorem transact_add (hf : FilterInv s.cfg s.filter) (hin : s.chan.keyIn = []) (hlen : key.length = len.toNat)
    {t : State} (h : transact { instr := .add len, key := key } s = .next t) :
    Done s t (withKey s.filter key) [] (keyStatus s.filter) 0#1 (fnvHash key) (murmurHash3 key) := by
  obtain ⟨u, hu, hd⟩ := execAdd_done (s := (HostMove.offerKey key).apply s) hf hlen (offerKey_keyIn hin)
  cases hu.symm.trans h
  exact hd.of_offerKey

/-- A CONTAINS of a key as a whole command (rules R69, R133). -/
theorem transact_contains (hf : FilterInv s.cfg s.filter) (hin : s.chan.keyIn = []) (hlen : key.length = len.toNat) :
    ∃ t, transact { instr := .contains len, key := key } s = .next t ∧
      Done s t s.filter [] (keyStatus s.filter) (membership s.filter key) (fnvHash key) (murmurHash3 key) := by
  obtain ⟨t, ht, hd⟩ := execContains_done (s := (HostMove.offerKey key).apply s) hf hlen (offerKey_keyIn hin)
  exact ⟨t, ht, hd.of_offerKey⟩

/-- After an ADD the cells at the key's positions read 1 and every other cell as before (rules R117, R132). -/
theorem cellRead_withKey (hf : FilterInv s.cfg s.filter) (hc : s.filter.constructed = true) {t : State}
    (ht : t.filter = withKey s.filter key) :
    ∃ p1 p2 p3, positions key s.filter.size = some (p1, p2, p3) ∧
      ∀ i, cellRead i t = if i = p1 ∨ i = p2 ∨ i = p3 then some 1#1 else cellRead i s := by
  have hs := hf.size_ne hc
  rw [withKey_of_constructed hc] at ht
  exact ⟨_, _, _, positions_eq key hs, cellRead_of_setThree hf.canonical (cellExists_umod _ hc hs)
    (cellExists_umod _ hc hs) (cellExists_umod _ hc hs) ht⟩

/-- `RESULT = 1` says that the key is present (rule R133). -/
theorem membership_eq_one_iff (hf : FilterInv s.cfg s.filter) (hc : s.filter.constructed = true) (key : List Byte) :
    membership s.filter key = 1#1 ↔ KeyPresent key s := by
  have hs := hf.size_ne hc
  have hread (a : Word) := cellRead_eq (cellExists_umod a hc hs)
  rw [membership_of_constructed hc, andThree, ← baHit_baBits, baHit_eq_one]
  simp [KeyPresent, positions_eq key hs, hread]

end WholeKey

/-- Settles O22: ADD is one equation (`execAdd_done`), and its cells are read back by `cellRead_withKey`. -/
theorem addSetsTheCellsOfItsKey : Obligations.AddSetsTheCellsOfItsKey := by
  intro s len key rest hf hlen hin
  obtain ⟨t, ht, hd⟩ := execAdd_done hf hlen hin
  have hk := keptOrSet_withKey s.filter key
  refine ⟨rfl, rfl, t, ht, by rw [hd.chan], hd.frame, by rw [hd.filter, hk.size], by rw [hd.filter, hk.constructed],
    fun hc => ?_, fun hc => ?_⟩
  · exact ⟨keyStatus_of_none hc ▸ hd.answered, hd.filter.trans (withKey_of_none hc key)⟩
  · exact ⟨keyStatus_of_constructed hc ▸ hd.answered, cellRead_withKey hf hc hd.filter⟩

/-- Settles O23: CONTAINS is one equation (`execContains_done`), and its result says that the key is present
(`membership_eq_one_iff`). -/
theorem containsAnswersTheAndOfItsCells : Obligations.ContainsAnswersTheAndOfItsCells := by
  intro s len key rest hf hlen hin
  obtain ⟨t, ht, hd⟩ := execContains_done hf hlen hin
  refine ⟨rfl, rfl, t, ht, by rw [hd.chan], hd.frame, hd.filter, fun hc => ?_, fun hc => ?_⟩
  · rw [← keyStatus_of_none hc, ← membership_of_none hc key]
    exact hd.answered
  · exact ⟨_, keyStatus_of_constructed hc ▸ hd.answered, membership_eq_one_iff hf hc key⟩

/-! ### Keys that are present (rules R137, R140) -/

/-- What the positions of a key say of it they say of every key with the same positions. -/
theorem KeyPresent.of_positions_eq {s : State} {key other : List Byte} (h : KeyPresent key s)
    (heq : positions key s.filter.size = positions other s.filter.size) : KeyPresent other s := by
  rwa [KeyPresent, ← heq]

/-- Setting cells takes no key away. -/
theorem KeyPresent.kept {s t : State} {key : List Byte} (h : KeyPresent key s) (hk : KeptOrSet s.filter t.filter)
    (hw : Memory.wf s.filter.cells) : KeyPresent key t := by
  obtain ⟨p1, p2, p3, hpos, h1, h2, h3⟩ := h
  have hread {p : Word} (hp : cellRead p s = some 1#1) : cellRead p t = some 1#1 := by
    rw [cellRead_eq_one_iff] at hp ⊢
    rw [hk.constructed, hk.size]
    exact ⟨hp.1, hk.read_one hw hp.2⟩
  exact ⟨p1, p2, p3, by rw [hk.size, hpos], hread h1, hread h2, hread h3⟩

theorem KeyPresent.constructed {s : State} {key : List Byte} (h : KeyPresent key s) : s.filter.constructed = true := by
  obtain ⟨p1, -, -, -, h1, -⟩ := h
  exact (cellRead_eq_one_iff.mp h1).1.1

/-- The key is present in a sound filter, between whole commands. -/
structure Present (key : List Byte) (s : State) : Prop where
  filter : FilterInv s.cfg s.filter
  keyIn : s.chan.keyIn = []
  present : KeyPresent key s

/-- A key added is present. -/
theorem Present.of_add {s t : State} {key : List Byte} {len : Word} (hf : FilterInv s.cfg s.filter)
    (hc : s.filter.constructed = true) (hin : s.chan.keyIn = []) (hlen : key.length = len.toNat)
    (h : transact { instr := .add len, key := key } s = .next t) : Present key t := by
  have hd := transact_add hf hin hlen h
  have hk : KeptOrSet s.filter t.filter := hd.filter ▸ keptOrSet_withKey s.filter key
  obtain ⟨p1, p2, p3, hpos, hread⟩ := cellRead_withKey hf hc hd.filter
  exact
    { filter := hd.cfg ▸ hk.filterInv hf
      keyIn := by rw [hd.chan]
      present := ⟨p1, p2, p3, by rw [hk.size, hpos], by simp [hread], by simp [hread], by simp [hread]⟩ }

/-- A CONTAINS of a key that is present answers OK with `RESULT = 1`. -/
theorem Present.contains {s : State} {key : List Byte} (h : Present key s) {len : Word}
    (hlen : key.length = len.toNat) :
    ∃ t, transact { instr := .contains len, key := key } s = .next t ∧
      Answered s t .ok 1#1 (fnvHash key) (murmurHash3 key) := by
  have hc := h.present.constructed
  obtain ⟨t, ht, hd⟩ := transact_contains h.filter h.keyIn hlen
  rw [keyStatus_of_constructed hc, (membership_eq_one_iff h.filter hc key).mpr h.present] at hd
  exact ⟨t, ht, hd.answered⟩

/-- Which commands zero the array depends on the device alone. -/
theorem zeroesCells_congr {s t : State} (h : t.cfg = s.cfg) (i : Instr) : zeroesCells i t ↔ zeroesCells i s := by
  cases i <;> simp [zeroesCells, createSucceeds, h]

/-- A whole command that zeroes nothing takes no key away. -/
theorem Present.transact {s t : State} {key : List Byte} (h : Present key s) {c : Transaction}
    (hwf : c.wellFormed = true) (hz : ¬ zeroesCells c.instr s) (ht : transact c s = .next t) :
    Present key t ∧ t.cfg = s.cfg := by
  obtain ⟨hframe, hkey, -⟩ := everyCommandKeepsItsFrame _ _ _ ht
  have hcfg : t.cfg = s.cfg := hframe.cfg
  have hk : KeptOrSet s.filter t.filter := by
    rcases exec_filter ht with hk | ⟨size, hi, hc, -⟩ | ⟨x, hi, -⟩
    · exact hk
    · rw [hi] at hz; exact absurd hc hz
    · rw [hi] at hz; exact absurd trivial hz
  refine ⟨⟨hcfg ▸ hk.filterInv h.filter, ?_, h.present.kept hk h.filter.canonical⟩, hcfg⟩
  rw [hkey, offerKey_keyIn h.keyIn, List.append_nil]
  exact List.drop_of_length_le (beq_iff_eq.mp hwf).le

/-- A sequence of whole commands that zero nothing takes no key away. -/
theorem Present.transactAll {key : List Byte} {cs : List Transaction} {s u : State} (h : Present key s)
    (hcs : ∀ c ∈ cs, c.wellFormed = true ∧ ¬ zeroesCells c.instr s) (hu : transactAll cs s = .next u) :
    Present key u := by
  induction cs generalizing s with
  | nil => cases hu; exact h
  | cons c cs ih =>
    obtain ⟨⟨hwf, hz⟩, hrest⟩ := List.forall_mem_cons.mp hcs
    rw [Machine.transactAll] at hu
    cases ht : Machine.transact c s with
    | next t =>
      rw [ht] at hu
      obtain ⟨hp, hcfg⟩ := h.transact hwf hz ht
      exact ih hp (fun c hc => (hrest c hc).imp_right (mt (zeroesCells_congr hcfg _).mp)) hu
    | fault r => rw [ht] at hu; cases hu
    | refused r => rw [ht] at hu; cases hu

/-- Settles O44: the key is present after its ADD (`Present.of_add`), stays so, by induction on the commands between
(`Present.transactAll`), and a CONTAINS sees it (`Present.contains`). -/
theorem noFalseNegatives : Obligations.NoFalseNegatives := by
  intro s t u key len between hinv _ hin hc hlen hbetween hadd hall
  have hcfg : t.cfg = s.cfg := (transact_add hinv.filter hin hlen hadd).cfg
  have hpresent : Present key t := .of_add hinv.filter hc hin hlen hadd
  have hkept : Present key u := hpresent.transactAll
    (fun c hm => (hbetween c hm).imp_right (mt (zeroesCells_congr hcfg _).mp)) hall
  exact hkept.contains hlen

/-- In a filter of one cell every key has the same positions (rule R133). -/
theorem positions_one (key : List Byte) : positions key 1#32 = some (0#32, 0#32, 0#32) := by
  simp [positions_eq, BitVec.umod_one]

/-- Settles O47: the added key is present, and every key has its positions (`positions_one`). -/
theorem oneCellFilterContainsEverything : Obligations.OneCellFilterContainsEverything := by
  intro s t key other len len' hf hc hs hin hlen hlen' hadd
  have hsize : t.filter.size = 1#32 := by
    rw [(transact_add hf hin hlen hadd).filter, (keptOrSet_withKey _ _).size, hs]
  have hkey : Present key t := .of_add hf hc hin hlen hadd
  have hother : KeyPresent other t := hkey.present.of_positions_eq (by rw [hsize, positions_one, positions_one])
  exact Present.contains ⟨hkey.filter, hkey.keyIn, hother⟩ hlen'

/-! ### What ADD and CLEAR leave (rules R138, R139, R141) -/

theorem withKey_withKey {f : Filter} (hw : Memory.wf f.cells) (key : List Byte) :
    withKey (withKey f key) key = withKey f key := by
  cases hc : f.constructed with
  | false => rw [withKey_of_none hc, withKey_of_none hc]
  | true =>
    rw [withKey_of_constructed hc, withKey_of_constructed (f := withThree f _ _) hc]
    simp [withThree, setThree_setThree hw]

/-- Settles O45, by `withKey_withKey`. -/
theorem addIsIdempotent : Obligations.AddIsIdempotent := by
  intro s t u key len hf hin hlen hadd hagain
  have hd := transact_add hf hin hlen hadd
  have hft : FilterInv t.cfg t.filter := by rw [hd.cfg, hd.filter]; exact (keptOrSet_withKey _ key).filterInv hf
  have hd' := transact_add hft (by rw [hd.chan]) hlen hagain
  rw [hd'.filter, hd.filter, withKey_withKey hf.canonical]

/-- An ADD sees of its key the three positions alone. -/
theorem withKey_congr {f : Filter} {key other : List Byte} (hc : f.constructed = true) (hs : f.size ≠ 0#32)
    (heq : positions key f.size = positions other f.size) : withKey f key = withKey f other := by
  rw [positions_eq key hs, positions_eq other hs, Option.some.injEq, Prod.mk.injEq, Prod.mk.injEq] at heq
  obtain ⟨h1, h2, h3⟩ := heq
  rw [withKey_of_constructed hc, withKey_of_constructed hc, withThree, withThree, h1, h2, h3]

/-- Settles O48, by `withKey_congr`. -/
theorem keysOfEqualPositionsAreIndistinguishable : Obligations.KeysOfEqualPositionsAreIndistinguishable := by
  intro s t u key other len len' hf hc hin hlen hlen' heq hadd hadd'
  rw [(transact_add hf hin hlen hadd).filter, (transact_add hf hin hlen' hadd').filter,
    withKey_congr hc (hf.size_ne hc) heq]

theorem andThree_of_no_cells {f : Filter} (h0 : f.cells = []) (a b : Word) : andThree f a b = 0#1 := by
  have hread (i : Nat) : Memory.read [] i = 0#1 := rfl
  rw [andThree, h0, hread, hread, hread, BitVec.and_self, BitVec.and_self]

theorem membership_of_no_cells {f : Filter} (h0 : f.cells = []) (key : List Byte) : membership f key = 0#1 := by
  rw [membership, andThree_of_no_cells h0, ite_self]

/-- Settles O46: CLEAR leaves an existing filter with no cell set, which contains no key (`membership_of_no_cells`). -/
theorem clearedFilterContainsNothing : Obligations.ClearedFilterContainsNothing := by
  intro s t x key len hf hc hin hclear hlen
  obtain ⟨t', ht', hd⟩ := execClear_ok x hc
  cases ht'.symm.trans hclear
  have hct : t.filter.constructed = true := by rw [hd.filter, hc]
  have h0 : t.filter.cells = [] := by rw [hd.filter]
  have hft : FilterInv t.cfg t.filter := by rw [hd.cfg, hd.filter]; exact hf.cleared
  refine ⟨fun i hi => ?cells, ?answer⟩
  case cells => rw [cellRead_of_no_cells hct h0, hd.filter, if_pos hi]
  case answer =>
    obtain ⟨u, hu, hdu⟩ := transact_contains hft (by rw [hd.chan, hin]) hlen
    rw [keyStatus_of_constructed hct, membership_of_no_cells h0] at hdu
    exact ⟨u, hu, hdu.answered⟩

end Sys2Proof.Machine
end

-- ==== The exceptions family (60_exceptions.md): nothing stops the machine, the three error statuses ====
section
/-! The obligations of 60_exceptions.md. A step and an edge stop only where the command they run or go on with stops
(`act_answers`), and none does. The status, the result and the hashes that answer a command are said once
(`commandStatus`, `commandHashes`, `exec_answer`); the error conditions are read off. -/

namespace Sys2Proof.Machine

/-! ### No other error exists (rule R154) -/

/-- With a sound filter a key command comes to its end, whatever its hashes are. -/
theorem finishInProgress_answers {c : Config} {s : State} (hf : FilterInv c s.filter) :
    ∃ t, finishInProgress s = .next t := by
  cases hc : s.filter.constructed with
  | false => exact (finishInProgress_none hc).imp fun _ h => h.1
  | true => exact (finishInProgress_ok hc (hf.size_ne hc)).imp fun _ h => h.1

theorem resumeCommand_answers {s : State} {taken : List Byte} (hf : FilterInv s.cfg s.filter)
    (hp : KeyProgress s taken) : ∃ t, resumeCommand s = .next t := by
  rcases resume_cases hf hp with ⟨-, h, -⟩ | ⟨t, _, _, _, _, _, h, -⟩
  · exact ⟨_, h⟩
  · exact ⟨t, h⟩

/-- An edge inside the key phase waits for a byte, takes one, or finishes the command. -/
theorem keyEdge_answers {c : Config} {s : State} (hf : FilterInv c s.filter) : ∃ t, keyEdge s = .next t := by
  by_cases hlt : s.seq.keyIdx < s.seq.keyLen
  · cases hk : s.chan.keyIn with
    | nil => exact ⟨s, by simp only [keyEdge, if_pos hlt, keyNext, hk]⟩
    | cons b bs => exact ⟨_, keyEdge_byte hlt hk⟩
  · rw [keyEdge, if_neg hlt]
    exact finishInProgress_answers (c := c) (by simpa using hf)

theorem resumeEdge_answers {s : State} {taken : List Byte} (hf : FilterInv s.cfg s.filter)
    (hp : KeyProgress s taken) : ∃ t, resumeEdge s = .next t := by
  rw [resumeEdge, if_pos (sequencerOk_of_progress hp)]
  exact keyEdge_answers hf

theorem startCommand_answers {s : State} (hf : FilterInv s.cfg s.filter) (i : Instr) :
    ∃ t, startCommand i s = .next t := by
  cases i with
  | create size => exact exec_answers hf (.create size)
  | clear x => exact exec_answers hf (.clear x)
  | add len => exact ⟨_, rfl⟩
  | contains len => exact ⟨_, rfl⟩

/-- The core moves on when going on with a command and beginning one do: its other actions never stop. -/
theorem act_answers {resume : State → Host.Outcome State Fault Refusal}
    {start : Instr → State → Host.Outcome State Fault Refusal} {s : State}
    (hresume : ∀ {taken}, FilterInv s.cfg s.filter → KeyProgress s taken → ∃ t, resume s = .next t)
    (hstart : ∀ {u : State}, FilterInv u.cfg u.filter → ∀ i, ∃ t, start i u = .next t)
    (h : Inv s) : ∃ t, act resume start s = .next t := by
  rw [act]
  rcases nextAction_cases s with ⟨ha, -⟩ | ⟨w, rest, ha, -⟩ | ⟨ha, -⟩ | ⟨ha, -, -, hp⟩ | ⟨w, rest, ha, -⟩ <;> rw [ha]
  · exact ⟨_, rfl⟩
  · exact ⟨_, rfl⟩
  · exact ⟨_, rfl⟩
  · obtain ⟨-, taken, hk⟩ := h.progress hp
    exact hresume h.filter hk
  · have hpop : FilterInv (popCommand rest s).cfg (popCommand rest s).filter := h.filter
    exact hstart hpop (decode w)

/-- Settles O41: a step and an edge act alike (`act_answers`), and neither part in which they differ stops. -/
theorem nothingStopsTheMachine : Obligations.NothingStopsTheMachine := fun _ h =>
  ⟨act_answers resumeCommand_answers exec_answers h, act_answers resumeEdge_answers startCommand_answers h⟩

/-! ### The fields of an answer, read back (rules R66, R67) -/

theorem Status.code_injective : Function.Injective Status.code := by
  intro x y
  cases x <;> cases y <;> decide

/-- A response word determines its fields. -/
theorem rspWord_inj {st st' : Status} {res res' : Bit} {a a' b b' : Word}
    (h : rspWord st res a b = rspWord st' res' a' b') : st = st' ∧ res = res' ∧ a = a' ∧ b = b' := by
  obtain ⟨-, hst, hres, ha, hb, -⟩ := responseWordHoldsItsFields st res a b
  obtain ⟨-, hst', hres', ha', hb', -⟩ := responseWordHoldsItsFields st' res' a' b'
  rw [← h] at hst' hres' ha' hb'
  exact ⟨Status.code_injective (hst.symm.trans hst'), hres.symm.trans hres', ha.symm.trans ha', hb.symm.trans hb'⟩

/-- A command has one answer. -/
theorem Done.answered_unique {s t : State} {f : Filter} {rest : List Byte} {st st' : Status} {res res' : Bit}
    {a a' b b' : Word} (h : Done s t f rest st res a b) (h' : Answered s t st' res' a' b') :
    st' = st ∧ res' = res ∧ a' = a ∧ b' = b := by
  have hw := h'.response.symm.trans h.answered.response
  exact rspWord_inj (List.singleton_inj.mp (List.append_cancel_left hw))

/-! ### What answers a command (rules R131 to R134) -/

/-- The status that answers a command (rules R151 to R153). -/
def commandStatus (i : Instr) (s : State) : Status :=
  match i with
  | .create size =>
    if size = 0#32 then .invalidArgument else if s.cfg.nmax.toNat < size.toNat then .capacity else .ok
  | .add _ | .contains _ | .clear _ => keyStatus s.filter

/-- The fields `H1` and `H2` that answer a command: 0, or the hashes of the key of the command. -/
def commandHashes (i : Instr) (s : State) : Word × Word :=
  match i with
  | .create _ | .clear _ => (0#32, 0#32)
  | .add len | .contains len => (fnvHash (s.chan.keyIn.take len.toNat), murmurHash3 (s.chan.keyIn.take len.toNat))

theorem commandStatus_create_zero (s : State) : commandStatus (.create 0#32) s = .invalidArgument := rfl

theorem commandStatus_create_capacity {size : Word} {s : State} (h : s.cfg.nmax.toNat < size.toNat) :
    commandStatus (.create size) s = .capacity := by
  have h0 : size ≠ 0#32 := by rintro rfl; exact Nat.not_lt_zero _ h
  rw [commandStatus, if_neg h0, if_pos h]

theorem commandStatus_create_ok {size : Word} {s : State} (h : createSucceeds size s) :
    commandStatus (.create size) s = .ok := by
  obtain ⟨h0, hle⟩ := h
  rw [commandStatus, if_neg h0, if_neg hle.not_gt]

theorem keyStatus_eq_notConstructed_iff (f : Filter) : keyStatus f = .notConstructed ↔ f.constructed = false := by
  cases hc : f.constructed <;> simp [keyStatus, hc]

theorem keyStatus_ne_invalidArgument (f : Filter) : keyStatus f ≠ .invalidArgument := by
  cases hc : f.constructed <;> simp [keyStatus, hc]

theorem keyStatus_ne_capacity (f : Filter) : keyStatus f ≠ .capacity := by
  cases hc : f.constructed <;> simp [keyStatus, hc]

/-- Rule R151. -/
theorem commandStatus_eq_invalidArgument_iff (i : Instr) (s : State) :
    commandStatus i s = .invalidArgument ↔ i = .create 0#32 := by
  cases i with
  | create size =>
    rcases create_cases size s with rfl | hc | hok
    · simp [commandStatus_create_zero]
    · have h0 : size ≠ 0#32 := by rintro rfl; exact Nat.not_lt_zero _ hc
      simp [commandStatus_create_capacity hc, h0]
    · simp [commandStatus_create_ok hok, hok.1]
  | add len => simp [commandStatus, keyStatus_ne_invalidArgument]
  | contains len => simp [commandStatus, keyStatus_ne_invalidArgument]
  | clear x => simp [commandStatus, keyStatus_ne_invalidArgument]

/-- Rule R153. -/
theorem commandStatus_eq_capacity_iff (i : Instr) (s : State) :
    commandStatus i s = .capacity ↔ ∃ size, i = .create size ∧ s.cfg.nmax.toNat < size.toNat := by
  cases i with
  | create size =>
    rcases create_cases size s with rfl | hc | hok
    · simp [commandStatus_create_zero]
    · simp [commandStatus_create_capacity hc, hc]
    · simp [commandStatus_create_ok hok, hok.2]
  | add len => simp [commandStatus, keyStatus_ne_capacity]
  | contains len => simp [commandStatus, keyStatus_ne_capacity]
  | clear x => simp [commandStatus, keyStatus_ne_capacity]

/-- Rule R152. -/
theorem commandStatus_eq_notConstructed_iff (i : Instr) (s : State) :
    commandStatus i s = .notConstructed ↔ s.filter.constructed = false ∧ ∀ size, i ≠ .create size := by
  cases i with
  | create size =>
    rcases create_cases size s with rfl | hc | hok
    · simp [commandStatus_create_zero]
    · simp [commandStatus_create_capacity hc]
    · simp [commandStatus_create_ok hok]
  | add len => simp [commandStatus, keyStatus_eq_notConstructed_iff]
  | contains len => simp [commandStatus, keyStatus_eq_notConstructed_iff]
  | clear x => simp [commandStatus, keyStatus_eq_notConstructed_iff]

/-- A command that is over has given its status and its hashes and taken its key bytes; an error has `RESULT = 0` and
leaves the filter state (rules R150 to R153). -/
theorem exec_answer {i : Instr} {s t : State} (h : exec i s = .next t) (hfin : t.inProgress = false) :
    ∃ f res, Done s t f (s.chan.keyIn.drop i.keyBytes) (commandStatus i s) res (commandHashes i s).1
      (commandHashes i s).2 ∧ (commandStatus i s ≠ .ok → res = 0#1 ∧ f = s.filter) := by
  cases exec_cases h with
  | createZero hi hd => subst hi; exact ⟨_, _, hd, fun _ => ⟨rfl, rfl⟩⟩
  | createCapacity size hi hc hd =>
    subst hi; rw [commandStatus_create_capacity hc]; exact ⟨_, _, hd, fun _ => ⟨rfl, rfl⟩⟩
  | createOk size hi hok hd =>
    subst hi; rw [commandStatus_create_ok hok]; exact ⟨_, _, hd, fun hne => absurd rfl hne⟩
  | waits op len _ _ hw => exact absurd (hw.inProgress.symm.trans hfin) (by decide)
  | clearNone x hi hc hd => subst hi; rw [commandStatus, keyStatus_of_none hc]; exact ⟨_, _, hd, fun _ => ⟨rfl, rfl⟩⟩
  | clearOk x hi hc hd =>
    subst hi; rw [commandStatus, keyStatus_of_constructed hc]; exact ⟨_, _, hd, fun hne => absurd rfl hne⟩
  | keyNone len hi _ hc hd =>
    obtain rfl | rfl := hi
    · rw [commandStatus, keyStatus_of_none hc]; exact ⟨_, _, hd, fun _ => ⟨rfl, rfl⟩⟩
    · rw [commandStatus, keyStatus_of_none hc]; exact ⟨_, _, hd, fun _ => ⟨rfl, rfl⟩⟩
  | addOk len hi _ hc _ hd =>
    subst hi; rw [commandStatus, keyStatus_of_constructed hc]; exact ⟨_, _, hd, fun hne => absurd rfl hne⟩
  | containsOk len hi _ hc _ hd =>
    subst hi; rw [commandStatus, keyStatus_of_constructed hc]; exact ⟨_, _, hd, fun hne => absurd rfl hne⟩

/-- Settles O25: the answer is the command's own (`exec_answer`, `Done.answered_unique`), and the conditions of its
status are exact (`commandStatus_eq_invalidArgument_iff` and the two beside it). -/
theorem errorStatusesAreExact : Obligations.ErrorStatusesAreExact := by
  refine ⟨⟨rfl, rfl, rfl⟩, fun i s t st res a b he hans => ?_⟩
  obtain ⟨f, r, hd, herr⟩ := exec_answer he hans.finished
  obtain ⟨rfl, rfl, rfl, rfl⟩ := hd.answered_unique hans
  refine ⟨commandStatus_eq_invalidArgument_iff i s, commandStatus_eq_capacity_iff i s,
    commandStatus_eq_notConstructed_iff i s, fun hne => ?error, ?noKey, ?key⟩
  case error =>
    obtain ⟨hres, hf⟩ := herr hne
    exact ⟨hres, hd.filter.trans hf, by rw [hd.chan]⟩
  case noKey =>
    rintro (⟨size, rfl⟩ | ⟨x, rfl⟩)
    · exact ⟨rfl, rfl⟩
    · exact ⟨rfl, rfl⟩
  case key =>
    rintro len (rfl | rfl)
    · exact ⟨rfl, rfl⟩
    · exact ⟨rfl, rfl⟩

end Sys2Proof.Machine
end

-- ==== The reset and hazards family (70_reset_and_hazards.md): the reset edge, a pending response, a waiting command ====
section
/-! The obligations of 70_reset_and_hazards.md. A reset edge, a held response and a waiting command are each one action
of the sequencer: its equation for a step says what is reached. -/

namespace Sys2Proof.Machine

/-! ### The reset edge (rules R170 to R172) -/

theorem step_of_reset {s : State} (h : s.chan.rst = true) : step s = .next (applyReset s) := by
  rw [step, nextAction_resetEdge h]

theorem edge_of_reset {s : State} (h : s.chan.rst = true) : edge s = .next (applyReset s) := by
  rw [edge, nextAction_resetEdge h]

/-- While `rst = 1` the core is ready for nothing and offers nothing (rule R170). -/
theorem outputs_of_reset {s : State} (h : s.chan.rst = true) :
    cmdReady s = false ∧ keyReady s = false ∧ rspValid s = false := by
  simp [cmdReady, keyReady, rspValid, h]

/-- Settles O32: a step and an edge are both `applyReset`, after which no cell exists. -/
theorem resetEdgeAbandonsEverything : Obligations.ResetEdgeAbandonsEverything := by
  intro s hrst
  obtain ⟨hcmd, hkey, hrsp⟩ := outputs_of_reset hrst
  have hcells (i : Word) : cellRead i (applyReset s) = none := cellRead_none (by simp [cellExists])
  exact ⟨hcmd, hkey, hrsp, applyReset s, step_of_reset hrst, edge_of_reset hrst, applyReset_cfg s, applyReset_filter s,
    applyReset_inProgress s, applyReset_chan s, hcells⟩

/-! ### A pending response (rule R176) -/

theorem step_of_hold {s : State} (h : s.chan.rst = false) (hr : s.chan.rspOut ≠ []) (hd : s.chan.rspReady = false) :
    step s = .next s := by rw [step, nextAction_hold h hr hd]

/-- The port shows the oldest response not yet taken. -/
theorem rspWordOut_of_pending {s : State} {w : RspWord} {rest : List RspWord} (h : s.chan.rst = false)
    (hr : s.chan.rspOut = w :: rest) : rspWordOut s = some w := by
  have hvalid : rspValid s = true := (rspValid_iff s).mpr ⟨h, by simp [hr]⟩
  rw [rspWordOut, if_pos hvalid, hr, List.head?_cons]

/-- Settles O35: with `rsp_ready = 0` the core waits (`step_of_hold`), with `rsp_ready = 1` it hands the response over
(`step_of_handOver`). -/
theorem responseIsHeldUntilTaken : Obligations.ResponseIsHeldUntilTaken := by
  intro s w rest hrst hr
  refine ⟨rspWordOut_of_pending hrst hr, step_of_hold hrst (by simp [hr]), fun hd => ?_⟩
  exact ⟨handOver w rest s, step_of_handOver hrst hr hd, by simp, by simp, by simp, by simp, by simp⟩

/-! ### A key command that waits (rule R175) -/

/-- Offering no byte changes nothing. -/
theorem offerKey_nil (s : State) : (HostMove.offerKey []).apply s = s := by
  simp only [HostMove.apply, List.append_nil]
  rfl

/-- A key phase that lacks bytes and is offered none stays as it is. -/
theorem runKey_dry (finish : State → Host.Outcome State Fault Refusal) {s : State} (hk : s.chan.keyIn = [])
    (hlt : s.seq.keyIdx < s.seq.keyLen) : runKey finish s = .next s := by
  simp only [runKey, hk, keyLoop_nil_self hk, if_pos hlt]

/-- A waiting command that is offered no byte waits on: its step goes on with a key phase that is dry. -/
theorem step_of_waits_dry {s t : State} {op : BitVec 2} {len : Word} (hw : Waits s t op len)
    (hshort : s.chan.keyIn.length < len.toNat) (hrst : s.chan.rst = false) (hrsp : s.chan.rspOut = []) :
    step t = .next t := by
  have hdry : t.chan.keyIn = [] := by rw [hw.chan]
  have hlt : t.seq.keyIdx < t.seq.keyLen := by rwa [BitVec.lt_def, hw.progress.idx, hw.keyLen]
  have hstep : step t = runKey finishInProgress t := by simpa only [offerKey_nil] using step_of_waits hw hrst hrsp []
  rw [hstep, runKey_dry finishInProgress hdry hlt]

/-- Settles O26: a key command short of bytes `Waits`, its progress being the bytes taken (`startKey_waits`), and
waits on until more are offered (`step_of_waits_dry`). -/
theorem keyCommandWaitsForItsBytes : Obligations.KeyCommandWaitsForItsBytes := by
  intro s len i hi hshort
  obtain ⟨t, ht, hw⟩ := startKey_waits finishInProgress (op_of_key hi) hshort
  exact ⟨t, (exec_key_eq hi s).trans ht, hw.inProgress, hw.progress, hw.keyLen, hw.cmdOp, hw.filter, hw.chan, hw.cfg,
    step_of_waits_dry hw hshort⟩

end Sys2Proof.Machine
end
